-- ==== Sys2Proof/Word.lean ====
section
/-!
DEFINITION. The value type of the VM block and its decimal digits.

R7, R15: a Word is a signed integer, and all arithmetic of the rules is on mathematical integers. R16:
instruction words are read in decimal, never as bit fields. So a Word is an `Int` in this model, written
so throughout (DESIGN CHOICE, log 3). Which integers are Words depends on `WORD_BITS` and is
`Config.fits`; that every stored value is one is an invariant of the machine (`Machine.State.Inv`).
-/

namespace Sys2Proof

/-- `digit(w, i) = (w div 10^i) mod 10` of R16, for a word that is not negative. -/
def decimalDigit (w i : Nat) : Nat := w / 10 ^ i % 10

end Sys2Proof
end

