-- ==== Sys2Proof/Config.lean ====
section
/-!
DEFINITION. The implementation parameters of 00_scope.md section 3 (R7 to R14).

R36: configuration is not state. Every operation of the machine takes a `Config`; `Config.spec` is this
spec's own choice of values, at which `exec` and `step` run (log 1).
-/

namespace Sys2Proof

/-- `MEM_POLICY` (R9): what a data access beyond the current memory length does. -/
inductive MemPolicy where
  | grow
  | strict
deriving DecidableEq, Repr

/-- `OVERFLOW_POLICY` (R11): what a result outside the Word range does. -/
inductive OverflowPolicy where
  | fault
  | wrap
deriving DecidableEq, Repr

/-- The parameters of one VM block, fixed for its life (R36). -/
structure Config where
  /-- `WORD_BITS` (R7): `some W` is a width of `W` bits, `none` is `INF`. -/
  wordBits : Option Nat
  /-- `MEM_POLICY` (R9). -/
  memPolicy : MemPolicy
  /-- `ADDR_LIMIT` (R10): the number of cells memory can ever hold by growing. -/
  addrLimit : Nat
  /-- `OVERFLOW_POLICY` (R11). -/
  overflowPolicy : OverflowPolicy
  /-- `RESET_RESTORES_MEMORY` (R12). -/
  resetRestoresMemory : Bool
  /-- `RESET_CLEARS_RB` (R13). -/
  resetClearsRb : Bool
  /-- `RESET_CLEARS_STATUS` (R13). -/
  resetClearsStatus : Bool
deriving DecidableEq, Repr

/-- `MEM_MIN` (R8): 8192 cells, the only value the spec gives it. -/
def Config.memMin : Nat := 8192

/-- `WMIN = -2^(W-1)` (R7). -/
def Config.wmin (bits : Nat) : Int := -(2 : Int) ^ (bits - 1)

/-- `WMAX = 2^(W-1) - 1` (R7). -/
def Config.wmax (bits : Nat) : Int := (2 : Int) ^ (bits - 1) - 1

/-- `fits(v)` (R15): `WMIN ≤ v ≤ WMAX`, and always true when `WORD_BITS = INF`. -/
def Config.fits (c : Config) (v : Int) : Bool :=
  match c.wordBits with
  | none => true
  | some w => decide (Config.wmin w ≤ v) && decide (v ≤ Config.wmax w)

/-- The values the parameters admit (section 3 of 00_scope.md): `WORD_BITS ≥ 16` or `INF`, and
`MEM_MIN ≤ ADDR_LIMIT ≤ WMAX - 3`. -/
def Config.legal (c : Config) : Bool :=
  decide (Config.memMin ≤ c.addrLimit) &&
  (match c.wordBits with
   | none => true
   | some w => decide (16 ≤ w) && decide ((c.addrLimit : Int) ≤ Config.wmax w - 3))

/-- `RESET_CLEARS_RB`, which R13 leaves OPEN: no claim can see its value (log 2). -/
opaque Config.openResetClearsRb : Bool

/-- `RESET_CLEARS_STATUS`, which R13 leaves OPEN: no claim can see its value (log 2). -/
opaque Config.openResetClearsStatus : Bool

/-- What an ERR register field reads as while no error is recorded, which R31 leaves unspecified
(S9: any value). The argument tells one reading from another (log 17). -/
opaque Config.unspecifiedWord : Nat → Int

/-- The unspecified valid flags of ERR_WORD and ERR_PARAM (R31, S9; log 17). -/
opaque Config.unspecifiedFlag : Nat → Bool

/-- The unspecified two bits of ERR_PARAM (R31, S9; log 17). -/
opaque Config.unspecifiedIndex : Nat → BitVec 2

/-- This spec's values (the table of 00_scope.md section 3; D1 to D4, D19). -/
def Config.spec : Config where
  wordBits := some 64
  memPolicy := .grow
  addrLimit := 2 ^ 32
  overflowPolicy := .fault
  resetRestoresMemory := false
  resetClearsRb := Config.openResetClearsRb
  resetClearsStatus := Config.openResetClearsStatus

end Sys2Proof
end

