-- ==== Sys2Proof/Machine/State.lean ====
section
/-!
DEFINITION. The state of one VM block (10_state.md), the reasons a step can stop, and the state after
reset.

The state is R20's tuple, plus `image0` where it exists (R37). It is plain data.
-/

namespace Sys2Proof.Machine

/-- The state machine state (R28). -/
inductive Fsm where
  | ready
  | running
  | blocked
  | halted
  | errored
deriving DecidableEq, Repr

/-- The error kinds the block raises (R200). -/
inductive ErrKind where
  | invalidOpcode
  | programCounterOverrun
  | illegalAddressingMode
  | addressOutOfRange
  | arithmeticOverflow
deriving DecidableEq, Repr

/-- The error record (R30): the kind, `pc` when the error was raised, the instruction word fetched
there (none when that fetch failed), and the parameter whose resolution failed, if one did. -/
structure ErrRec where
  kind : ErrKind
  errPc : Int
  errWord : Option Int
  errParam : Option (Fin 3)
deriving DecidableEq, Repr

/-- Memory: `mem` and `memLen` (R21, R22). `cells` lists the cells that do not hold 0, addresses
strictly rising and all below `len`; a cell that is not listed holds 0 (R51; log 4). -/
structure Memory where
  cells : List (Nat × Int)
  len : Nat
deriving DecidableEq, Repr

/-- The state of one instance (R20). -/
structure State where
  /-- `mem` and `memLen` (R21, R22). -/
  mem : Memory
  /-- The program counter (R23), a signed Word. -/
  pc : Int
  /-- The relative base (R24), a signed Word. -/
  rb : Int
  /-- The input queue, front first (R26). -/
  inQ : List Int
  /-- The output queue, oldest first (R27). -/
  outQ : List Int
  /-- The state machine state (R28). -/
  fsm : Fsm
  /-- The error record of the run that ended in an error (R30). -/
  err : Option ErrRec
  /-- The initial memory image, which exists only when `RESET_RESTORES_MEMORY = true` (R37). -/
  image0 : Option Memory
deriving DecidableEq, Repr

/-- The reasons a step stops with a fault: there are none. Every error of the block is a value it
returns (R209), so it is a next state with `fsm = Errored`, and nothing stops the machine. -/
inductive Fault where
deriving DecidableEq, Repr

/-- The requests the model gives no meaning (R18). -/
inductive Refusal where
  /-- An instruction without a meaning yet; raised by no arm of `exec`. Safe. -/
  | notModelled (mnemonic : String)
  /-- A step when no run is in progress (R102: a step runs only when `fsm = Running`). Raised by `step`.
  Safe: the block executes nothing there. -/
  | noRunInProgress
  /-- A command while a run is in progress (R101: the block accepts a command only when the previous one
  has returned). Raised by the caller's commands. Safe: no command can reach the block there. -/
  | runInProgress
  /-- RUN on a Halted or Errored machine (R112). Raised by `startRun`. Safe: no claim can be made of it. -/
  | terminal
  /-- Caller data that is no Word, or a program longer than `ADDR_LIMIT` (R231). Raised by `construct`
  and `startRun`. Safe: the block admits no such data. -/
  | dataNotAdmitted
deriving DecidableEq, Repr

/-- The state right after reset: CONSTRUCT of the empty program with no input (R38, R230, D26). Each
field is at the value R38 states; `image0` does not exist at this spec's parameters (R37; log 6). -/
def State.reset : State where
  mem := { cells := [], len := Config.memMin }
  pc := 0
  rb := 0
  inQ := []
  outQ := []
  fsm := .ready
  err := none
  image0 := none

end Sys2Proof.Machine
end

