-- ==== Sys2Proof/Machine/Ops.lean ====
section
/-!
DEFINITION. The shared operations: the overflow check, the cells of memory, the data read and the
address check of 20_memory.md, the pending effects of one instruction and their commit, error entry,
and blocking.
-/

namespace Sys2Proof.Machine

/-! ## The overflow check (R17, R130) -/

/-- A value reduced to two's complement of the configured width: `((v - WMIN) mod 2^W) + WMIN` (R17).
With `WORD_BITS = INF` there is nothing to reduce. -/
def wrapWord (c : Config) (v : Int) : Int :=
  match c.wordBits with
  | none => v
  | some w => (v - Config.wmin w) % 2 ^ w + Config.wmin w

/-- `chk(v)` (R17): `none` stands for `raise ArithmeticOverflow`. -/
def chk (c : Config) (v : Int) : Option Int :=
  if c.fits v then some v
  else
    match c.overflowPolicy with
    | .fault => none
    | .wrap => some (wrapWord c v)

/-! ## The cells of memory -/

/-- The value of cell `a` in a rising list of cells: 0 where it is not listed. -/
def cellsGet : List (Nat × Int) → Nat → Int
  | [], _ => 0
  | (b, v) :: rest, a => if a = b then v else cellsGet rest a

/-- A rising list of cells with cell `a` set to `v`; setting 0 removes the entry. -/
def cellsSet : List (Nat × Int) → Nat → Int → List (Nat × Int)
  | [], a, v => if v = 0 then [] else [(a, v)]
  | (b, w) :: rest, a, v =>
    if a < b then (if v = 0 then (b, w) :: rest else (a, v) :: (b, w) :: rest)
    else if a = b then (if v = 0 then rest else (a, v) :: rest)
    else (b, w) :: cellsSet rest a v

/-- The canonical form from address `lo` on: addresses at least `lo`, strictly rising and below `len`,
and no listed cell holds 0. -/
def cellsWf (len : Nat) : Nat → List (Nat × Int) → Bool
  | _, [] => true
  | lo, (a, v) :: rest =>
    decide (lo ≤ a) && decide (a < len) && decide (v ≠ 0) && cellsWf len (a + 1) rest

/-- The cells of a program laid out from address `base` on (R61). -/
def cellsOfList : Nat → List Int → List (Nat × Int)
  | _, [] => []
  | base, v :: vs =>
    if v = 0 then cellsOfList (base + 1) vs else (base, v) :: cellsOfList (base + 1) vs

/-- Memory is in canonical form. -/
def Memory.wf (m : Memory) : Bool := cellsWf m.len 0 m.cells

/-- `mem[a]` (R17): the Word cell `a` holds. -/
def Memory.get (m : Memory) (a : Nat) : Int := cellsGet m.cells a

/-- `mem[a] <- v` (R53). -/
def Memory.set (m : Memory) (a : Nat) (v : Int) : Memory := { m with cells := cellsSet m.cells a v }

/-- `memLen <- n` (R55, R102). -/
def Memory.setLen (m : Memory) (n : Nat) : Memory := { m with len := n }

/-- Memory with the words `ws` in the cells from `a` on, long enough to hold them. -/
def Memory.place (m : Memory) (a : Nat) : List Int → Memory
  | [] => m
  | w :: ws => ((m.setLen (max m.len (a + 1))).set a w).place (a + 1) ws

/-! ## Errors inside an instruction -/

/-- `raise E(info)` (R17): the kind, and the parameter it belongs to if it belongs to one (R30). -/
structure Trap where
  kind : ErrKind
  param : Option (Fin 3)
deriving DecidableEq, Repr

/-! ## Data access (R52, R54, R55) -/

/-- The check of a data address `a` against `memLen`, `MEM_POLICY` and `ADDR_LIMIT` (R52, R79): the new
`pendingLen`, or `none` for AddressOutOfRange. -/
def checkDataAddress (c : Config) (m : Memory) (pendingLen : Nat) (a : Int) : Option Nat :=
  if a < 0 then none
  else if a < (m.len : Int) then some pendingLen
  else if c.memPolicy = .strict ∨ (c.addrLimit : Int) ≤ a then none
  else some (max pendingLen (a.toNat + 1))

/-- `MemRead(a, 1)` (R52) for parameter `k`: the value and the new `pendingLen`. A cell at or above
`memLen` reads 0. -/
def memRead (c : Config) (m : Memory) (pendingLen : Nat) (k : Fin 3) (a : Int) :
    Except Trap (Int × Nat) :=
  match checkDataAddress c m pendingLen a with
  | none => .error { kind := .addressOutOfRange, param := some k }
  | some len => .ok (if a < (m.len : Int) then m.get a.toNat else 0, len)

/-! ## Fetch (R56) -/

/-- `Fetch(a)` (R56): checked against `memLen`, never growing; `none` is ProgramCounterOverrun. -/
def fetch (m : Memory) (a : Int) : Option Int :=
  if a < 0 ∨ (m.len : Int) ≤ a then none else some (m.get a.toNat)

/-! ## Pending effects and their commit (R68) -/

/-- The pending set of one instruction (R68). -/
structure Pending where
  /-- `pendingLen`. -/
  len : Nat
  /-- At most one cell write. -/
  write : Option (Nat × Int)
  /-- `newPc`. -/
  pc : Int
  /-- The relative base after the instruction. -/
  rb : Int
  /-- Whether the front of `inQ` is removed. -/
  pop : Bool
  /-- At most one word appended to `outQ`. -/
  push : Option Int
deriving DecidableEq, Repr

/-- How the body of an instruction ends. -/
inductive Result where
  /-- It completes with these effects. -/
  | done (p : Pending)
  /-- `raise` (R17). -/
  | raise (t : Trap)
  /-- `block` (R17). -/
  | block
deriving DecidableEq, Repr

/-- The pending set of an instruction that only advances: `pendingLen` after its parameters resolved,
and `pc + width` (R102, R106). -/
def Pending.advance (s : State) (len width : Nat) : Pending where
  len := len
  write := none
  pc := s.pc + width
  rb := s.rb
  pop := false
  push := none

/-- The one cell write of a pending set, applied (R53, R68). -/
def Memory.applyWrite (m : Memory) : Option (Nat × Int) → Memory
  | none => m
  | some (a, v) => m.set a v

/-- Commit (R68, R102): every pending effect is applied at once. -/
def commit (s : State) (p : Pending) : State :=
  { s with
    mem := (s.mem.setLen p.len).applyWrite p.write
    pc := p.pc
    rb := p.rb
    inQ := if p.pop then s.inQ.tail else s.inQ
    outQ := s.outQ ++ p.push.toList }

/-- The error record of an instruction that raises `t` (R30): the word recorded is the one fetched at
`pc`, none when that fetch fails. -/
def errRecord (s : State) (t : Trap) : ErrRec where
  kind := t.kind
  errPc := s.pc
  errWord := fetch s.mem s.pc
  errParam := t.param

/-- Error entry (R209): `fsm <- Errored` and the record; nothing else changes (R208). -/
def raiseError (s : State) (t : Trap) : State :=
  { s with fsm := .errored, err := some (errRecord s t) }

/-- Blocking (R110): `fsm <- Blocked`; nothing else changes. -/
def block (s : State) : State := { s with fsm := .blocked }

/-- The end of an instruction: its effects are committed, or it raises, or it blocks. Each is a next
state (R102). -/
def conclude (s : State) : Result → Host.Outcome State Fault Refusal
  | .done p => .next (commit s p)
  | .raise t => .next (raiseError s t)
  | .block => .next (block s)

end Sys2Proof.Machine
end

