-- ==== Sys2Proof/Syntax.lean ====
section
/-!
DEFINITION. The instructions of R73 as syntax: one constructor per row of spec/opcode_table.json.

An instruction holds its parameters, each a mode and a literal (R70, R77, R81). The decoder does not
check mode digits (R83), so a parameter may hold a digit that is no mode; using it raises
IllegalAddressingMode (R78, R79). The ignored digits of the opcode word (R76) are not part of the
instruction (R84: such words are the same instruction).
-/

namespace Sys2Proof

/-- The mode digit of a parameter (R77). -/
inductive Mode where
  /-- Digit 0: the literal is an address. -/
  | positional
  /-- Digit 1: the literal is the operand; for reads only. -/
  | immediate
  /-- Digit 2: the literal is an offset from the relative base. -/
  | relative
  /-- Digits 3 to 9, which name no mode: the digit is `3 + excess`. -/
  | illegal (excess : Fin 7)
deriving DecidableEq, Repr

/-- One parameter: its mode and its literal, the whole Word of its cell (R81). -/
structure Param where
  mode : Mode
  lit : Int
deriving DecidableEq, Repr

/-- The ten instructions (R73), parameters in the order of the table. -/
inductive Instr where
  /-- ADD, opcode 1 (R131). -/
  | add (a b c : Param)
  /-- MUL, opcode 2 (R132). -/
  | mul (a b c : Param)
  /-- IN, opcode 3 (R140). -/
  | inp (a : Param)
  /-- OUT, opcode 4 (R141). -/
  | out (a : Param)
  /-- JT, opcode 5 (R160). -/
  | jt (a b : Param)
  /-- JF, opcode 6 (R161). -/
  | jf (a b : Param)
  /-- LT, opcode 7 (R170). -/
  | lt (a b c : Param)
  /-- EQ, opcode 8 (R171). -/
  | eq (a b c : Param)
  /-- ARB, opcode 9 (R180). -/
  | arb (a : Param)
  /-- HLT, opcode 99 (R190). -/
  | hlt
deriving DecidableEq, Repr

/-- The access kind of a parameter (R74). -/
inductive Access where
  | read
  | write
deriving DecidableEq, Repr

/-- The parameters of an instruction, with the access kind its format gives each (R74). -/
def Instr.params : Instr → List (Access × Param)
  | .add a b c => [(.read, a), (.read, b), (.write, c)]
  | .mul a b c => [(.read, a), (.read, b), (.write, c)]
  | .inp a => [(.write, a)]
  | .out a => [(.read, a)]
  | .jt a b => [(.read, a), (.read, b)]
  | .jf a b => [(.read, a), (.read, b)]
  | .lt a b c => [(.read, a), (.read, b), (.write, c)]
  | .eq a b c => [(.read, a), (.read, b), (.write, c)]
  | .arb a => [(.read, a)]
  | .hlt => []

/-- The number of cells an instruction occupies (R70): one more than its parameters. -/
def Instr.width (i : Instr) : Nat := 1 + i.params.length

end Sys2Proof
end

