-- ==== Sys2Proof/Machine/Operands.lean ====
section
/-!
DEFINITION. The address resolver of 30_encoding.md section 3: read operands (R78), write targets (R79),
the relative effective address (R80), and the order of resolution (R82).
-/

namespace Sys2Proof.Machine

/-- The error of a mode digit that is not legal for the parameter (R203). -/
def illegalMode (k : Fin 3) : Trap := { kind := .illegalAddressingMode, param := some k }

/-- The address a positional or relative parameter names (R77, R80), `none` where the relative sum
overflows. The relative base is its value when the instruction starts. -/
def relativeAddress (c : Config) (s : State) (lit : Int) : Option Int := chk c (s.rb + lit)

/-- `ResolveRead(k, m, lit)` (R78): the operand's value and the new `pendingLen`. -/
def resolveRead (c : Config) (s : State) (pendingLen : Nat) (k : Fin 3) (p : Param) :
    Except Trap (Int × Nat) :=
  match p.mode with
  | .positional => memRead c s.mem pendingLen k p.lit
  | .immediate => .ok (p.lit, pendingLen)
  | .relative =>
    match relativeAddress c s p.lit with
    | none => .error { kind := .arithmeticOverflow, param := some k }
    | some a => memRead c s.mem pendingLen k a
  | .illegal _ => .error (illegalMode k)

/-- `CheckDataAddress(ea)` (R79) for parameter `k`: the cell's address and the new `pendingLen`. -/
def checkTarget (c : Config) (s : State) (pendingLen : Nat) (k : Fin 3) (ea : Int) :
    Except Trap (Nat × Nat) :=
  match checkDataAddress c s.mem pendingLen ea with
  | none => .error { kind := .addressOutOfRange, param := some k }
  | some len => .ok (ea.toNat, len)

/-- `ResolveWrite(k, m, lit)` (R79): the target cell and the new `pendingLen`. -/
def resolveWrite (c : Config) (s : State) (pendingLen : Nat) (k : Fin 3) (p : Param) :
    Except Trap (Nat × Nat) :=
  match p.mode with
  | .positional => checkTarget c s pendingLen k p.lit
  | .immediate => .error (illegalMode k)
  | .relative =>
    match relativeAddress c s p.lit with
    | none => .error { kind := .arithmeticOverflow, param := some k }
    | some ea => checkTarget c s pendingLen k ea
  | .illegal _ => .error (illegalMode k)

/-- The two read operands of F2RR and F3RRW, resolved in order (R74, R82). -/
def resolveTwo (c : Config) (s : State) (a b : Param) : Except Trap (Int × Int × Nat) :=
  match resolveRead c s s.mem.len 0 a with
  | .error t => .error t
  | .ok (va, len) =>
    match resolveRead c s len 1 b with
    | .error t => .error t
    | .ok (vb, len') => .ok (va, vb, len')

/-- The shape of format F3RRW (R74): two reads, one write target, then the result `f` of the two
values, `none` being ArithmeticOverflow of the result, which comes last (R207). Width 4. -/
def storeResult (c : Config) (s : State) (f : Int → Int → Option Int) (a b d : Param) : Result :=
  match resolveTwo c s a b with
  | .error t => .raise t
  | .ok (va, vb, len) =>
    match resolveWrite c s len 2 d with
    | .error t => .raise t
    | .ok (ea, len') =>
      match f va vb with
      | none => .raise { kind := .arithmeticOverflow, param := none }
      | some r => .done { Pending.advance s len' 4 with write := some (ea, r) }

/-- The shape of format F2RR (R74): a condition and a target are read, and `pc` takes the target where
the condition holds, else advances by 3 (R106). The target is read either way (R160). -/
def jumpWhen (c : Config) (s : State) (taken : Int → Bool) (a b : Param) : Result :=
  match resolveTwo c s a b with
  | .error t => .raise t
  | .ok (va, vb, len) =>
    if taken va then .done { Pending.advance s len 3 with pc := vb }
    else .done (Pending.advance s len 3)

end Sys2Proof.Machine
end

