-- ==== Sys2Proof/Machine/Arithmetic.lean ====
section
/-!
DEFINITION. The arithmetic instructions of 41_arithmetic.md, at any configuration and, as the meanings
`exec` calls, at this spec's own.
-/

namespace Sys2Proof.Machine

/-- ADD (R131): `c <- chk(a + b)`. -/
def addIn (c : Config) (a b d : Param) (s : State) : Host.Outcome State Fault Refusal :=
  conclude s (storeResult c s (fun x y => chk c (x + y)) a b d)

/-- MUL (R132): `c <- chk(a × b)`, the exact signed product. -/
def mulIn (c : Config) (a b d : Param) (s : State) : Host.Outcome State Fault Refusal :=
  conclude s (storeResult c s (fun x y => chk c (x * y)) a b d)

/-- ADD at this spec's parameters (R131). -/
def execAdd (a b d : Param) (s : State) : Host.Outcome State Fault Refusal := addIn Config.spec a b d s

/-- MUL at this spec's parameters (R132). -/
def execMul (a b d : Param) (s : State) : Host.Outcome State Fault Refusal := mulIn Config.spec a b d s

end Sys2Proof.Machine
end

