-- ==== Sys2Proof/Machine/Flags.lean ====
section
/-!
DEFINITION. Truth values and the status view.

R33: the block has no flags or condition codes. A comparison writes 0 or 1 to a cell, and a jump tests
a Word against zero. The status and error registers of R31 are views of `fsm` and `err`.
-/

namespace Sys2Proof.Machine

/-- The Word a comparison writes (R170, R171). -/
def truthWord (b : Bool) : Int := if b then 1 else 0

/-- The condition of JT (R160): any value but 0 is true. -/
def condTrue (v : Int) : Bool := decide (v ≠ 0)

/-- The condition of JF (R161): exactly 0. -/
def condFalse (v : Int) : Bool := decide (v = 0)

/-- The 3-bit code of an FSM state (R28, D14). -/
def Fsm.code : Fsm → Nat
  | .ready => 0
  | .running => 1
  | .blocked => 2
  | .halted => 3
  | .errored => 4

/-- The code of an error kind (R200, D14). -/
def ErrKind.code : ErrKind → Nat
  | .invalidOpcode => 1
  | .programCounterOverrun => 2
  | .illegalAddressingMode => 3
  | .addressOutOfRange => 4
  | .arithmeticOverflow => 5

/-- The ERRKIND code: 0 while no error is recorded (R31, R200). -/
def errKindCode (s : State) : Nat :=
  match s.err with
  | none => 0
  | some e => e.kind.code

/-- The STATUS register (R31): FSM in bits 2 to 0, ERRKIND in bits 6 to 3, bit 7 reads 0. -/
def State.statusReg (s : State) : BitVec 8 := BitVec.ofNat 8 (s.fsm.code + 8 * errKindCode s)

/-- ERR_PC (R31): `errPc`, and unspecified while no error is recorded. `reading` tells one reading from
another (log 17). -/
def State.errPcReg (s : State) (reading : Nat) : Int :=
  match s.err with
  | none => Config.unspecifiedWord reading
  | some e => e.errPc

/-- ERR_WORD (R31): the word and its valid flag. The word is unspecified where the flag is clear, and
both are while no error is recorded (log 17). -/
def State.errWordReg (s : State) (reading : Nat) : Int × Bool :=
  match s.err with
  | none => (Config.unspecifiedWord reading, Config.unspecifiedFlag reading)
  | some e =>
    match e.errWord with
    | none => (Config.unspecifiedWord reading, false)
    | some w => (w, true)

/-- ERR_PARAM (R31): two bits and their valid flag, unspecified as those of ERR_WORD (log 17). -/
def State.errParamReg (s : State) (reading : Nat) : BitVec 2 × Bool :=
  match s.err with
  | none => (Config.unspecifiedIndex reading, Config.unspecifiedFlag reading)
  | some e =>
    match e.errParam with
    | none => (Config.unspecifiedIndex reading, false)
    | some k => (BitVec.ofNat 2 k.val, true)

/-- The source's `halted` (R29): `fsm = Halted`. -/
def State.halted (s : State) : Bool := decide (s.fsm = .halted)

end Sys2Proof.Machine
end

