-- ==== Sys2Proof/Machine/Compare.lean ====
section
/-!
DEFINITION. The comparisons of 44_compare.md: signed, writing 1 or 0 to a cell.
-/

namespace Sys2Proof.Machine

/-- LT at any configuration (R170). -/
def ltIn (c : Config) (a b d : Param) (s : State) : Host.Outcome State Fault Refusal :=
  conclude s (storeResult c s (fun x y => some (truthWord (decide (x < y)))) a b d)

/-- EQ at any configuration (R171). -/
def eqIn (c : Config) (a b d : Param) (s : State) : Host.Outcome State Fault Refusal :=
  conclude s (storeResult c s (fun x y => some (truthWord (decide (x = y)))) a b d)

/-- LT at this spec's parameters (R170). -/
def execLt (a b d : Param) (s : State) : Host.Outcome State Fault Refusal := ltIn Config.spec a b d s

/-- EQ at this spec's parameters (R171). -/
def execEq (a b d : Param) (s : State) : Host.Outcome State Fault Refusal := eqIn Config.spec a b d s

end Sys2Proof.Machine
end

