-- ==== Sys2Proof/Machine/Halt.lean ====
section
/-!
DEFINITION. Halt (46_halt.md).
-/

namespace Sys2Proof.Machine

/-- The state after HLT (R190): `fsm <- Halted`; `pc` is not advanced and nothing else changes. -/
def haltState (s : State) : State := { s with fsm := .halted }

/-- HLT (R190), the same at every configuration. -/
def execHlt (s : State) : Host.Outcome State Fault Refusal := .next (haltState s)

end Sys2Proof.Machine
end

