-- ==== Sys2Proof/Machine/Io.lean ====
section
/-!
DEFINITION. The input and output instructions of 42_io.md.
-/

namespace Sys2Proof.Machine

/-- IN (R140): the write target is resolved first; then an empty `inQ` blocks, and otherwise its front
element is written and removed. -/
def inputResult (c : Config) (s : State) (a : Param) : Result :=
  match resolveWrite c s s.mem.len 0 a with
  | .error t => .raise t
  | .ok (ea, len) =>
    match s.inQ with
    | [] => .block
    | v :: _ => .done { Pending.advance s len 2 with write := some (ea, v), pop := true }

/-- OUT (R141): the operand is appended to `outQ`; it never blocks (R145). -/
def outputResult (c : Config) (s : State) (a : Param) : Result :=
  match resolveRead c s s.mem.len 0 a with
  | .error t => .raise t
  | .ok (v, len) => .done { Pending.advance s len 2 with push := some v }

/-- IN at any configuration (R140). -/
def inpIn (c : Config) (a : Param) (s : State) : Host.Outcome State Fault Refusal :=
  conclude s (inputResult c s a)

/-- OUT at any configuration (R141). -/
def outIn (c : Config) (a : Param) (s : State) : Host.Outcome State Fault Refusal :=
  conclude s (outputResult c s a)

/-- IN at this spec's parameters (R140). -/
def execInp (a : Param) (s : State) : Host.Outcome State Fault Refusal := inpIn Config.spec a s

/-- OUT at this spec's parameters (R141). -/
def execOut (a : Param) (s : State) : Host.Outcome State Fault Refusal := outIn Config.spec a s

end Sys2Proof.Machine
end

