-- ==== Sys2Proof/Machine/Jumps.lean ====
section
/-!
DEFINITION. The conditional jumps of 43_jumps.md. Any Word is a legal target: the check comes with the
next fetch (R162).
-/

namespace Sys2Proof.Machine

/-- JT at any configuration (R160). -/
def jtIn (c : Config) (a b : Param) (s : State) : Host.Outcome State Fault Refusal :=
  conclude s (jumpWhen c s condTrue a b)

/-- JF at any configuration (R161). -/
def jfIn (c : Config) (a b : Param) (s : State) : Host.Outcome State Fault Refusal :=
  conclude s (jumpWhen c s condFalse a b)

/-- JT at this spec's parameters (R160). -/
def execJt (a b : Param) (s : State) : Host.Outcome State Fault Refusal := jtIn Config.spec a b s

/-- JF at this spec's parameters (R161). -/
def execJf (a b : Param) (s : State) : Host.Outcome State Fault Refusal := jfIn Config.spec a b s

end Sys2Proof.Machine
end

