-- ==== Sys2Proof/Machine/RelativeBase.lean ====
section
/-!
DEFINITION. The relative base adjustment of 45_relative_base.md, the only instruction that writes `rb`.
-/

namespace Sys2Proof.Machine

/-- ARB (R180): `rb <- chk(rb + a)`; the operand is read with the old `rb`. -/
def adjustBaseResult (c : Config) (s : State) (a : Param) : Result :=
  match resolveRead c s s.mem.len 0 a with
  | .error t => .raise t
  | .ok (v, len) =>
    match chk c (s.rb + v) with
    | none => .raise { kind := .arithmeticOverflow, param := none }
    | some rb' => .done { Pending.advance s len 2 with rb := rb' }

/-- ARB at any configuration (R180). -/
def arbIn (c : Config) (a : Param) (s : State) : Host.Outcome State Fault Refusal :=
  conclude s (adjustBaseResult c s a)

/-- ARB at this spec's parameters (R180). -/
def execArb (a : Param) (s : State) : Host.Outcome State Fault Refusal := arbIn Config.spec a s

end Sys2Proof.Machine
end

