-- ==== Sys2Proof/Decode.lean ====
section
/-!
DEFINITION. The instruction decoder of 30_encoding.md (R70 to R86) and, after it, the encoder (R84).

`decodeWord` is R83's `Decode`, a function of the opcode word alone. `decode` reads a whole instruction
from a list of cells: total on any list, and rejecting by name.
-/

namespace Sys2Proof

/-- The ten operations of the opcode map (R73). -/
inductive Opcode where
  | add | mul | inp | out | jt | jf | lt | eq | arb | hlt
deriving DecidableEq, Repr

/-- The `OP` number of an operation (R73). 1 and 99 follow from the source's example; 2 to 9 are from
general knowledge (PRESUMED, log 10). -/
def Opcode.code : Opcode → Nat
  | .add => 1
  | .mul => 2
  | .inp => 3
  | .out => 4
  | .jt => 5
  | .jf => 6
  | .lt => 7
  | .eq => 8
  | .arb => 9
  | .hlt => 99

/-- The operation an `OP` number selects; every other number is illegal (R75). -/
def Opcode.ofCode : Nat → Option Opcode
  | 1 => some .add
  | 2 => some .mul
  | 3 => some .inp
  | 4 => some .out
  | 5 => some .jt
  | 6 => some .jf
  | 7 => some .lt
  | 8 => some .eq
  | 9 => some .arb
  | 99 => some .hlt
  | _ => none

/-- The access kinds of an operation's parameters: its format (R74). -/
def Opcode.format : Opcode → List Access
  | .add => [.read, .read, .write]
  | .mul => [.read, .read, .write]
  | .inp => [.write]
  | .out => [.read]
  | .jt => [.read, .read]
  | .jf => [.read, .read]
  | .lt => [.read, .read, .write]
  | .eq => [.read, .read, .write]
  | .arb => [.read]
  | .hlt => []

/-- The mode a decimal digit stands for (R77). -/
def Mode.ofDigit : Nat → Mode
  | 0 => .positional
  | 1 => .immediate
  | 2 => .relative
  | d + 3 => .illegal ⟨d % 7, Nat.mod_lt d (by decide)⟩

/-- The mode digit of parameter `k` in the opcode word (R71): `digit(w, k + 2)`. -/
def modeDigit (w k : Nat) : Nat := decimalDigit w (k + 2)

/-- What the decoder answers for an opcode word (R83, R87): the operation and one mode per parameter. -/
structure Header where
  op : Opcode
  modes : List Mode
deriving DecidableEq, Repr

/-- The parameter count `n` (R83). -/
def Header.count (h : Header) : Nat := h.modes.length

/-- The instruction's width in cells, `1 + n` (R70, R83). -/
def Header.width (h : Header) : Nat := 1 + h.count

/-- `Decode(w)` of R83, `none` being InvalidOpcode: a negative word (R72) or an `OP` outside R73's set. -/
def decodeWord (w : Int) : Option Header :=
  if w < 0 then none
  else
    match Opcode.ofCode (w.toNat % 100) with
    | none => none
    | some op =>
      some { op := op
             modes := (List.range op.format.length).map fun k => Mode.ofDigit (modeDigit w.toNat k) }

/-- Why a list of cells holds no instruction. -/
inductive DecodeError where
  /-- There is no opcode cell (R103). -/
  | noOpcodeCell
  /-- The opcode word decodes as no instruction (R72, R75). -/
  | invalidOpcode
  /-- The cell of parameter `k` is missing (R105). -/
  | missingParam (k : Fin 3)
deriving DecidableEq, Repr

/-- Parameter `k` of an instruction: its mode from the opcode word, its literal from its own cell. -/
def paramAt (h : Header) (lits : List Int) (k : Fin 3) : Except DecodeError Param :=
  match lits[k.val]? with
  | none => .error (.missingParam k)
  | some v => .ok { mode := h.modes.getD k.val .positional, lit := v }

/-- An instruction of one parameter. -/
def decodeOne (f : Param → Instr) (h : Header) (lits : List Int) : Except DecodeError Instr :=
  match paramAt h lits 0 with
  | .error e => .error e
  | .ok a => .ok (f a)

/-- An instruction of two parameters; the lowest missing one is reported (R105, R207). -/
def decodeTwo (f : Param → Param → Instr) (h : Header) (lits : List Int) : Except DecodeError Instr :=
  match paramAt h lits 0 with
  | .error e => .error e
  | .ok a =>
    match paramAt h lits 1 with
    | .error e => .error e
    | .ok b => .ok (f a b)

/-- An instruction of three parameters; the lowest missing one is reported (R105, R207). -/
def decodeThree (f : Param → Param → Param → Instr) (h : Header) (lits : List Int) :
    Except DecodeError Instr :=
  match paramAt h lits 0 with
  | .error e => .error e
  | .ok a =>
    match paramAt h lits 1 with
    | .error e => .error e
    | .ok b =>
      match paramAt h lits 2 with
      | .error e => .error e
      | .ok c => .ok (f a b c)

/-- The instruction whose opcode word decoded to `h` and whose later cells are `lits`. -/
def decodeParams (h : Header) (lits : List Int) : Except DecodeError Instr :=
  match h.op with
  | .add => decodeThree .add h lits
  | .mul => decodeThree .mul h lits
  | .inp => decodeOne .inp h lits
  | .out => decodeOne .out h lits
  | .jt => decodeTwo .jt h lits
  | .jf => decodeTwo .jf h lits
  | .lt => decodeThree .lt h lits
  | .eq => decodeThree .eq h lits
  | .arb => decodeOne .arb h lits
  | .hlt => .ok .hlt

/-- The instruction at the front of a list of cells: the opcode word is decoded first, then the cells
of its parameters are taken (R104, R105). Cells behind the instruction are not looked at. -/
def decode : List Int → Except DecodeError Instr
  | [] => .error .noOpcodeCell
  | w :: lits =>
    match decodeWord w with
    | none => .error .invalidOpcode
    | some h => decodeParams h lits

/-! ## The encoder (R84) -/

/-- The decimal digit of a mode (R77). -/
def Mode.digit : Mode → Nat
  | .positional => 0
  | .immediate => 1
  | .relative => 2
  | .illegal e => e.val + 3

/-- The operation of an instruction. -/
def Instr.opcode : Instr → Opcode
  | .add _ _ _ => .add
  | .mul _ _ _ => .mul
  | .inp _ => .inp
  | .out _ => .out
  | .jt _ _ => .jt
  | .jf _ _ => .jf
  | .lt _ _ _ => .lt
  | .eq _ _ _ => .eq
  | .arb _ => .arb
  | .hlt => .hlt

/-- The mode digits of a parameter list as one number, parameter 0 lowest: `m0 + 10·m1 + 100·m2`. -/
def modesNumber : List Mode → Nat
  | [] => 0
  | m :: ms => m.digit + 10 * modesNumber ms

/-- The canonical opcode word `op + 100·m0 + 1000·m1 + 10000·m2` (R84). -/
def opcodeWord (i : Instr) : Nat :=
  i.opcode.code + 100 * modesNumber (i.params.map fun q => q.2.mode)

/-- The cells of an instruction: its canonical opcode word and then its literals (R70, R84). -/
def encode (i : Instr) : List Int :=
  (opcodeWord i : Int) :: i.params.map fun q => q.2.lit

/-! ## Cells as bits: the numbering of spec/opcode_table.json's bits

The block has no byte or bit view of a cell (R57). Where a number of bits is given for an instruction,
bit 0 is the lowest of the first cell, a cell is 64 bits in two's complement (R7 with `WORD_BITS = 64`),
and the cells follow one another (DESIGN CHOICE, log 5). -/

/-- The Word whose 64-bit two's complement pattern is the low 64 bits of `u`. -/
def cellOfBits (u : Nat) : Int :=
  if u % 2 ^ 64 < 2 ^ 63 then ((u % 2 ^ 64 : Nat) : Int) else ((u % 2 ^ 64 : Nat) : Int) - 2 ^ 64

/-- The first `n` cells of a bit pattern. -/
def cellsOfBits (w : Nat) : Nat → List Int
  | 0 => []
  | n + 1 => cellOfBits w :: cellsOfBits (w / 2 ^ 64) n

/-- The longest instruction has four cells (R70). -/
def maxWidth : Nat := 4

/-- The instruction the decoder reads from the bit pattern `w`. The count of bits the table gives adds
nothing: every bit above them is 0, which `w` already says. -/
def decodeTableWord (_nbits w : Nat) : Option Instr :=
  match decode (cellsOfBits w maxWidth) with
  | .error _ => none
  | .ok i => some i

end Sys2Proof
end

