-- ==== Sys2Proof/Machine/Fetch.lean ====
section
/-!
DEFINITION. Fetching an instruction (R103 to R105) and one step around an executor (R102).
-/

namespace Sys2Proof.Machine

/-- The cells from `a` on that exist, at most `n` of them: what `Fetch` gives for `a`, `a + 1`, … until
one of them fails (R56). -/
def fetchWindow (m : Memory) (a : Int) : Nat → List Int
  | 0 => []
  | n + 1 =>
    match fetch m a with
    | none => []
    | some w => w :: fetchWindow m (a + 1) n

/-- The error a cell list without an instruction raises (R201, R202). -/
def trapOfDecode : DecodeError → Trap
  | .noOpcodeCell => { kind := .programCounterOverrun, param := none }
  | .invalidOpcode => { kind := .invalidOpcode, param := none }
  | .missingParam k => { kind := .programCounterOverrun, param := some k }

/-- The instruction at `pc`: the opcode word is fetched and decoded, then its parameter cells are
fetched, all before any parameter is resolved (R103 to R105). -/
def fetchInstr (s : State) : Except Trap Instr :=
  match decode (fetchWindow s.mem s.pc maxWidth) with
  | .error e => .error (trapOfDecode e)
  | .ok i => .ok i

/-- One step (R102) with executor `ex`: it runs only when `fsm = Running`. -/
def stepVia (ex : Instr → State → Host.Outcome State Fault Refusal) (s : State) :
    Host.Outcome State Fault Refusal :=
  if s.fsm = .running then
    match fetchInstr s with
    | .error t => .next (raiseError s t)
    | .ok i => ex i s
  else .refused .noRunInProgress

/-- The state with the cells of a bit pattern where the next fetch reads them, and a run in progress:
what a load and a RUN with no input leave to the next step (log 7). A negative `pc` names no cell, so
`pc` is then 0. -/
def placeFetchWord (s : State) (w : Nat) : State :=
  { s with
    mem := s.mem.place s.pc.toNat (cellsOfBits w maxWidth)
    pc := max s.pc 0
    fsm := .running }

end Sys2Proof.Machine
end

