-- ==== Sys2Proof/Machine/Step.lean ====
section
/-! DEFINITION. One step of the block (R102) at this spec's own parameters. -/

namespace Sys2Proof.Machine

/-- One step (R102): fetch, decode and execute the instruction at `pc`. -/
def step (s : State) : Host.Outcome State Fault Refusal := stepVia exec s

/-- `s` with the instruction of the bit pattern `w` where `step` fetches its next instruction, and a run
in progress, so that the next step runs it (log 5, log 7). -/
def State.withFetchWord (s : State) (_nbits w : Nat) : State := placeFetchWord s w

end Sys2Proof.Machine
end

