-- ==== Sys2Proof/Machine/Assembler.lean ====
section
/-!
DEFINITION. The assembler notation of 30_encoding.md section 5 (R88, R89), as syntax and the cells it
stands for. The block itself knows cells only; this is the spec's own notation (D21, D22). Label names are
numbers here, and the text form is not parsed (log 26).
-/

namespace Sys2Proof

/-- The `N` of an operand or of `.word` (R88): a decimal integer or a label. -/
inductive AsmValue where
  | num (n : Int)
  | label (name : Nat)
deriving DecidableEq, Repr

/-- The operand forms of R88. -/
inductive AsmOperand where
  /-- `[N]`: positional. -/
  | pos (v : AsmValue)
  /-- `#N`: immediate. -/
  | imm (v : AsmValue)
  /-- `[rb+N]`: relative. -/
  | rbPlus (v : AsmValue)
  /-- `[rb-N]`: relative with literal `-N`. -/
  | rbMinus (v : AsmValue)
deriving DecidableEq, Repr

/-- The lines of a program (R88, R89). -/
inductive AsmLine where
  /-- `label:` binds the label to the address of the next cell. -/
  | label (name : Nat)
  /-- A mnemonic and its operands in parameter order. -/
  | instr (op : Opcode) (operands : List AsmOperand)
  /-- `JMP t` is `JT #1, t`. -/
  | jmp (t : AsmOperand)
  /-- `MOV s, d` is `ADD s, #0, d`. -/
  | mov (s d : AsmOperand)
  /-- `NOP` is `ARB #0`. -/
  | nop
  /-- `HALT` is `HLT`. -/
  | halt
  /-- `.word N, N, …` emits raw cells. -/
  | word (vs : List AsmValue)
deriving DecidableEq, Repr

/-- A pseudo-instruction replaced by its expansion (R89). -/
def AsmLine.expand : AsmLine → AsmLine
  | .jmp t => .instr .jt [.imm (.num 1), t]
  | .mov s d => .instr .add [s, .imm (.num 0), d]
  | .nop => .instr .arb [.imm (.num 0)]
  | .halt => .instr .hlt []
  | .label name => .label name
  | .instr op operands => .instr op operands
  | .word vs => .word vs

/-- The number of cells a line emits. -/
def AsmLine.size (l : AsmLine) : Nat :=
  match l.expand with
  | .instr op _ => 1 + op.format.length
  | .word vs => vs.length
  | .label _ => 0
  | .jmp _ => 0
  | .mov _ _ => 0
  | .nop => 0
  | .halt => 0

/-- The address a label is bound to, the first line being at address `base` (R88). -/
def labelAddress (name : Nat) : Nat → List AsmLine → Option Nat
  | _, [] => none
  | base, .label n :: rest => if n = name then some base else labelAddress name base rest
  | base, l :: rest => labelAddress name (base + l.size) rest

/-- The integer an `N` stands for in program `prog`. -/
def AsmValue.resolve (prog : List AsmLine) : AsmValue → Option Int
  | .num n => some n
  | .label name => (labelAddress name 0 prog).map fun a => (a : Int)

/-- The parameter an operand form stands for (R88). -/
def AsmOperand.resolve (prog : List AsmLine) : AsmOperand → Option Param
  | .pos v => (v.resolve prog).map fun n => ⟨.positional, n⟩
  | .imm v => (v.resolve prog).map fun n => ⟨.immediate, n⟩
  | .rbPlus v => (v.resolve prog).map fun n => ⟨.relative, n⟩
  | .rbMinus v => (v.resolve prog).map fun n => ⟨.relative, -n⟩

/-- The instruction of an operation and its parameters; none where their number is wrong (R74). -/
def instrOf : Opcode → List Param → Option Instr
  | .add, [a, b, d] => some (.add a b d)
  | .mul, [a, b, d] => some (.mul a b d)
  | .inp, [a] => some (.inp a)
  | .out, [a] => some (.out a)
  | .jt, [a, b] => some (.jt a b)
  | .jf, [a, b] => some (.jf a b)
  | .lt, [a, b, d] => some (.lt a b d)
  | .eq, [a, b, d] => some (.eq a b d)
  | .arb, [a] => some (.arb a)
  | .hlt, [] => some .hlt
  | _, _ => none

/-- The cells a line emits (R84, R88); none for an unbound label or a wrong number of operands. -/
def AsmLine.cells (prog : List AsmLine) (l : AsmLine) : Option (List Int) :=
  match l.expand with
  | .instr op operands =>
    match operands.mapM fun o => o.resolve prog with
    | none => none
    | some ps => (instrOf op ps).map encode
  | .word vs => vs.mapM fun v => v.resolve prog
  | .label _ => some []
  | .jmp _ => none
  | .mov _ _ => none
  | .nop => none
  | .halt => none

/-- The machine-code listing of a program (R88). -/
def assemble (prog : List AsmLine) : Option (List Int) :=
  (prog.mapM (AsmLine.cells prog)).map List.flatten

end Sys2Proof
end

