-- ==== Sys2Proof/Machine/Parametric.lean ====
section
/-!
DEFINITION. The same dispatcher and step at any configuration: the parameter values the spec admits
beside its own (R7, R9, R11). `exec` and `step` are these at `Config.spec`.
-/

namespace Sys2Proof.Machine

/-- The dispatcher (R107) at configuration `c`. -/
def execIn (c : Config) (i : Instr) (s : State) : Host.Outcome State Fault Refusal :=
  match i with
  | .add a b d => addIn c a b d s
  | .mul a b d => mulIn c a b d s
  | .inp a => inpIn c a s
  | .out a => outIn c a s
  | .jt a b => jtIn c a b s
  | .jf a b => jfIn c a b s
  | .lt a b d => ltIn c a b d s
  | .eq a b d => eqIn c a b d s
  | .arb a => arbIn c a s
  | .hlt => execHlt s

/-- One step (R102) at configuration `c`. -/
def stepIn (c : Config) (s : State) : Host.Outcome State Fault Refusal := stepVia (execIn c) s

end Sys2Proof.Machine
end

