-- ==== Sys2Proof/Machine/Caller.lean ====
section
/-!
DEFINITION. The caller's commands (R100, R101): CONSTRUCT, RUN, DRAIN, RESET, IS_HALTED and the trace
toggle. A RUN is `startRun` and then steps while `fsm = Running`; there is no fuel (R115).
-/

namespace Sys2Proof.Machine

/-- Caller data is admitted only when every element is a Word (R231). -/
def admits (c : Config) (vs : List Int) : Bool := vs.all c.fits

/-- The memory CONSTRUCT leaves (R230): the program from cell 0, zeros up to
`max(len(program), MEM_MIN)`. -/
def programMemory (program : List Int) : Memory where
  cells := cellsOfList 0 program
  len := max program.length Config.memMin

/-- The state CONSTRUCT leaves (R230, R38). -/
def constructed (c : Config) (program initialInput : List Int) : State where
  mem := programMemory program
  pc := 0
  rb := 0
  inQ := initialInput
  outQ := []
  fsm := .ready
  err := none
  image0 := if c.resetRestoresMemory then some (programMemory program) else none

/-- CONSTRUCT (R230): a new instance, or a refusal of data that is not admitted (R231). -/
def construct (c : Config) (program initialInput : List Int) : Host.Outcome State Fault Refusal :=
  if admits c program && admits c initialInput && decide (program.length ≤ c.addrLimit) then
    .next (constructed c program initialInput)
  else .refused .dataNotAdmitted

/-- The first part of RUN (R108): a terminal machine refuses (R112); otherwise the input is appended to
`inQ` (R143) and `fsm <- Running`. The steps that follow are the run. -/
def startRun (c : Config) (additionalInput : List Int) (s : State) : Host.Outcome State Fault Refusal :=
  match s.fsm with
  | .running => .refused .runInProgress
  | .halted => .refused .terminal
  | .errored => .refused .terminal
  | .ready | .blocked =>
    if admits c additionalInput then
      .next { s with inQ := s.inQ ++ additionalInput, fsm := .running }
    else .refused .dataNotAdmitted

/-- RUN's response (R113). -/
inductive RunResult where
  | ok
  | error (e : ErrRec)
deriving DecidableEq, Repr

/-- The response of a run that ended in `s` (R113): `ok` when Halted or Blocked, the error record when
Errored; none while the run goes on or where none was made. -/
def runResult (s : State) : Option RunResult :=
  match s.fsm with
  | .halted => some .ok
  | .blocked => some .ok
  | .errored => s.err.map .error
  | .ready => none
  | .running => none

/-- The state after DRAIN (R144). -/
def drained (s : State) : State := { s with outQ := [] }

/-- The state after RESET (R232, R38). -/
def resetState (c : Config) (s : State) : State :=
  { s with
    pc := 0
    inQ := []
    outQ := []
    mem := if c.resetRestoresMemory then s.image0.getD s.mem else s.mem
    rb := if c.resetClearsRb then 0 else s.rb
    fsm := if c.resetClearsStatus then .ready else s.fsm
    err := if c.resetClearsStatus then none else s.err }

/-- The commands on an instance (R100). CONSTRUCT makes the instance and is `construct`. -/
inductive Command where
  | run (additionalInput : List Int)
  | drain
  | reset
  | isHalted
  /-- The debug/trace toggle, which has no architectural effect (R217). -/
  | trace (on : Bool)
deriving DecidableEq, Repr

/-- What a command answers at once. -/
inductive Response where
  /-- A run has started; its response is `runResult` of the state it ends in (R113). -/
  | started
  /-- The words DRAIN returns (R144). -/
  | words (ws : List Int)
  /-- No response (RESET, the trace toggle). -/
  | done
  /-- The answer of IS_HALTED (R114). -/
  | flag (b : Bool)
deriving DecidableEq, Repr

/-- RUN's start as a command. -/
def runCommand (c : Config) (additionalInput : List Int) (s : State) :
    Host.Outcome (State × Response) Fault Refusal :=
  match startRun c additionalInput s with
  | .next t => .next (t, .started)
  | .fault r => .fault r
  | .refused r => .refused r

/-- A command (R100). The block accepts one only between runs (R101). -/
def command (c : Config) (cmd : Command) (s : State) : Host.Outcome (State × Response) Fault Refusal :=
  if s.fsm = .running then .refused .runInProgress
  else
    match cmd with
    | .run additionalInput => runCommand c additionalInput s
    | .drain => .next (drained s, .words s.outQ)
    | .reset => .next (resetState c s, .done)
    | .isHalted => .next (s, .flag s.halted)
    | .trace _ => .next (s, .done)

/-- A run from `s` ends in `t` (R108, R235): steps while `fsm = Running`, and `t` is the first state
where it is not. -/
inductive RunsTo (c : Config) : State → State → Prop where
  | ended (s : State) (h : s.fsm ≠ .running) : RunsTo c s s
  | step (s t u : State) (h : stepIn c s = .next t) (hr : RunsTo c t u) : RunsTo c s u

/-- `n` steps of a run lead from `s` to `t`. -/
def stepsTo (c : Config) : Nat → State → State → Prop
  | 0, s, t => s = t
  | n + 1, s, t => ∃ u, stepIn c s = .next u ∧ stepsTo c n u t

/-- A run that never ends (R115): after every number of steps it is still running. -/
def Diverges (c : Config) (s : State) : Prop := ∀ n, ∃ t, stepsTo c n s t ∧ t.fsm = .running

/-- One RUN as a transaction (R100, R108): from `s`, with `additionalInput`, to the state it ends in. -/
def Run (c : Config) (additionalInput : List Int) (s t : State) : Prop :=
  ∃ u, startRun c additionalInput s = .next u ∧ RunsTo c u t

/-- Several RUNs, each but the last ending Blocked (R118): from `s` with these inputs to `u`, the caller
draining the output after a run or not; `out` is everything drained on the way. -/
inductive RunsAcross (c : Config) : State → List (List Int) → List Int → State → Prop where
  | last (s t : State) (xs : List Int) (h : Run c xs s t) : RunsAcross c s [xs] [] t
  | more (s t u : State) (xs : List Int) (rest : List (List Int)) (out : List Int)
      (h : Run c xs s t) (hb : t.fsm = .blocked) (hr : RunsAcross c t rest out u) :
      RunsAcross c s (xs :: rest) out u
  | drain (s t u : State) (xs : List Int) (rest : List (List Int)) (out : List Int)
      (h : Run c xs s t) (hb : t.fsm = .blocked) (hr : RunsAcross c (drained t) rest out u) :
      RunsAcross c s (xs :: rest) (t.outQ ++ out) u

end Sys2Proof.Machine
end

