-- ==== Sys2Proof/WellFormed.lean ====
section
/-!
DEFINITION. Which instructions are legal as syntax: the canonical words of R84 and literals that are
Words (R81). An instruction that is not well formed still decodes and still runs: using the bad
parameter raises IllegalAddressingMode (R85).
-/

namespace Sys2Proof

/-- The legal modes of a parameter (R77): 0, 1, 2 for a read and 0, 2 for a write target. -/
def Mode.legalFor : Mode → Access → Bool
  | .positional, _ => true
  | .immediate, .read => true
  | .immediate, .write => false
  | .relative, _ => true
  | .illegal _, _ => false

/-- A well-formed parameter: a mode legal for its access, and a literal that is a Word. -/
def Param.wellFormed (c : Config) (acc : Access) (p : Param) : Bool :=
  p.mode.legalFor acc && c.fits p.lit

/-- A well-formed instruction (R84): each of its parameters is. -/
def Instr.wellFormed (c : Config) (i : Instr) : Bool :=
  i.params.all fun q => q.2.wellFormed c q.1

end Sys2Proof
end

