-- ==== Sys2Proof/Safety.lean ====
section
/-!
DEFINITION. The terms claims use: the invariant of the machine's states, which operands an instruction
can use, the cell it stores to, and what a final state is.
-/

namespace Sys2Proof.Machine

/-- A memory image of the machine: canonical, of a legal length (R22), every cell a Word (R51). -/
structure Memory.Good (c : Config) (m : Memory) : Prop where
  wf : m.wf = true
  len_min : Config.memMin ≤ m.len
  len_max : m.len ≤ c.addrLimit
  words : ∀ a, c.fits (m.get a) = true

/-- The invariant of the states of an instance. -/
structure State.Inv (c : Config) (s : State) : Prop where
  /-- Memory is canonical, of a legal length, and holds Words (R21, R22, R51). -/
  mem : s.mem.Good c
  /-- `pc` and `rb` are Words (R23, R24). -/
  pc : c.fits s.pc = true
  rb : c.fits s.rb = true
  /-- Both queues hold Words (R26, R27). -/
  inQ : ∀ v ∈ s.inQ, c.fits v = true
  outQ : ∀ v ∈ s.outQ, c.fits v = true
  /-- `err ≠ none` exactly when `fsm = Errored` (R30). -/
  err : s.err.isSome = true ↔ s.fsm = .errored
  /-- `image0` exists exactly when `RESET_RESTORES_MEMORY = true` (R37). -/
  image : s.image0.isSome = c.resetRestoresMemory
  /-- and it is a memory of the machine. -/
  imageGood : ∀ m, s.image0 = some m → m.Good c

/-- The memory length is `n`, and RESET would restore that length (R54, R232). -/
def State.lenFixed (s : State) (n : Nat) : Prop := s.mem.len = n ∧ ∀ m, s.image0 = some m → m.len = n

/-- A final state of a program (R235): Halted, with no error. -/
def State.Final (s : State) : Prop := s.fsm = .halted ∧ s.err = none

/-- The address a positional or relative parameter names (R77, R80); none for an immediate parameter, a
digit that is no mode, or a relative sum that overflows. -/
def addressOf (c : Config) (s : State) (p : Param) : Option Int :=
  match p.mode with
  | .positional => some p.lit
  | .immediate => none
  | .relative => relativeAddress c s p.lit
  | .illegal _ => none

/-- A data access at address `a` is in range (R54, R55, R204): not negative, and below `memLen` or, under
`grow`, below `ADDR_LIMIT`. -/
def inRange (c : Config) (s : State) (a : Int) : Bool :=
  decide (0 ≤ a) &&
    (decide (a < (s.mem.len : Int)) || (decide (c.memPolicy = .grow) && decide (a < (c.addrLimit : Int))))

/-- Parameter `p` names a cell in range, so it can be a write target. -/
def writable (c : Config) (s : State) (p : Param) : Bool :=
  match addressOf c s p with
  | none => false
  | some a => inRange c s a

/-- Parameter `p` can be read: it is immediate, or it names a cell in range. -/
def readable (c : Config) (s : State) (p : Param) : Bool :=
  decide (p.mode = .immediate) || writable c s p

/-- The value of a readable parameter (R78): the literal itself, or what its cell holds, 0 at and above
`memLen`. -/
def valueOf (c : Config) (s : State) (p : Param) : Int :=
  if p.mode = .immediate then p.lit
  else
    match addressOf c s p with
    | none => 0
    | some a => if a < (s.mem.len : Int) then s.mem.get a.toNat else 0

/-- The cell a writable parameter names. -/
def targetOf (c : Config) (s : State) (p : Param) : Nat :=
  match addressOf c s p with
  | none => 0
  | some a => a.toNat

/-- The memory length an access through `p` asks for (R55): one more than its address, and nothing for an
immediate parameter. -/
def reachOf (c : Config) (s : State) (p : Param) : Nat :=
  match addressOf c s p with
  | none => 0
  | some a => a.toNat + 1

/-- The memory length after an instruction with these parameters commits (R55, R68). -/
def lenAfter (c : Config) (s : State) (ps : List Param) : Nat :=
  ps.foldl (fun n p => max n (reachOf c s p)) s.mem.len

/-- The error parameter `k` raises when it is resolved, if any (R203 to R205), in the order of R207: the
mode digit, the overflow of the relative sum, the range of the address. -/
def paramError (c : Config) (s : State) (acc : Access) (k : Fin 3) (p : Param) : Option Trap :=
  if p.mode.legalFor acc = false then some { kind := .illegalAddressingMode, param := some k }
  else if p.mode = .immediate then none
  else
    match addressOf c s p with
    | none => some { kind := .arithmeticOverflow, param := some k }
    | some a =>
      if inRange c s a then none else some { kind := .addressOutOfRange, param := some k }

/-- The first error of a list of parameters, numbered from `k` on (R82, R207). -/
def firstErrorFrom (c : Config) (s : State) (k : Nat) : List (Access × Param) → Option Trap
  | [] => none
  | (acc, p) :: rest =>
    match paramError c s acc (Fin.ofNat 3 k) p with
    | some t => some t
    | none => firstErrorFrom c s (k + 1) rest

/-- The first error an instruction's parameters raise, if any (R82, R207). -/
def firstError (c : Config) (s : State) (i : Instr) : Option Trap := firstErrorFrom c s 0 i.params

/-- Where a taken jump goes (R160, R161); none for an instruction that does not jump. -/
def jumpTarget (c : Config) (s : State) (i : Instr) : Option Int :=
  match i with
  | .jt a b => if valueOf c s a ≠ 0 then some (valueOf c s b) else none
  | .jf a b => if valueOf c s a = 0 then some (valueOf c s b) else none
  | .add _ _ _ => none
  | .mul _ _ _ => none
  | .inp _ => none
  | .out _ => none
  | .lt _ _ _ => none
  | .eq _ _ _ => none
  | .arb _ => none
  | .hlt => none

/-- The write target of an instruction, where its format has one (R74). -/
def writeParam : Instr → Option Param
  | .add _ _ d => some d
  | .mul _ _ d => some d
  | .inp a => some a
  | .out _ => none
  | .jt _ _ => none
  | .jf _ _ => none
  | .lt _ _ d => some d
  | .eq _ _ d => some d
  | .arb _ => none
  | .hlt => none

/-- The cell an instruction stores to, where it stores (R79). -/
def storeCell (c : Config) (s : State) (i : Instr) : Option Nat :=
  match writeParam i with
  | none => none
  | some p =>
    match addressOf c s p with
    | none => none
    | some a => some a.toNat

/-- The state after an instruction that stores `v` in the cell `d` names and advances by `width`: memory
has grown to reach the cells its parameters `ps` name, and nothing else has changed. -/
def stored (c : Config) (s : State) (ps : List Param) (d : Param) (v : Int) (width : Nat) : State :=
  { s with
    mem := (s.mem.setLen (lenAfter c s ps)).set (targetOf c s d) v
    pc := s.pc + width }

/-- Everything but `fsm` and `err` is the same in `s` and `t` (R208, R110, R190). -/
def sameButStatus (s t : State) : Prop :=
  t.mem = s.mem ∧ t.pc = s.pc ∧ t.rb = s.rb ∧ t.inQ = s.inQ ∧ t.outQ = s.outQ ∧ t.image0 = s.image0

/-- Either the status is unchanged, or an error was entered and nothing but the status changed (R208,
R209). -/
def statusKeptOrError (s t : State) : Prop :=
  (t.fsm = s.fsm ∧ t.err = s.err) ∨ (t.fsm = .errored ∧ sameButStatus s t)

/-- Every cell but the one `i` stores to, if it names one, reads in `t` as in `s`. -/
def cellsKept (c : Config) (i : Instr) (s t : State) : Prop :=
  (∀ ea, storeCell c s i = some ea → ∀ x, x ≠ ea → t.mem.get x = s.mem.get x) ∧
    (storeCell c s i = none → ∀ x, t.mem.get x = s.mem.get x)

end Sys2Proof.Machine
end

