-- ==== Sys2Proof/Certificates/Slice0/Obligations.lean ====
section
/-!
DEFINITION. The statements for the provers. Each names the rules of spec/ it comes from. `exec` and
`step` run at this spec's parameters `Config.spec`; `execIn c` and `stepIn c` at any parameters.
-/

open Sys2Proof Sys2Proof.Machine

/-! ## Encoding -/

/-- R84, R83, R71: decoding the cells of any instruction gives it back, whatever cells follow. -/
def Obligations.DecodeEncodeRoundTrip : Prop :=
  ∀ (i : Instr) (rest : List Int), decode (encode i ++ rest) = .ok i

/-- R84, R76, R71, R105: a list of cells decodes to `i` exactly when its first cell is not negative, has the
digits of the canonical word of `i` in the low places that `i` uses, whatever digits stand above, and is
followed by the literals of `i`. -/
def Obligations.DecodeReadsTheUsedDigits : Prop :=
  ∀ (w : Int) (lits : List Int) (i : Instr),
    decode (w :: lits) = .ok i ↔
      0 ≤ w ∧ w % 10 ^ (i.width + 1) = (opcodeWord i : Int) ∧
        lits.take i.params.length = i.params.map fun q => q.2.lit

/-- R75, R201: a word whose low two decimal digits are 0 or 10 to 98, or that is negative, decodes as no
instruction, no other word does so, and a step that fetches one raises InvalidOpcode with the word
recorded. Negative words are the spec's decision D7; that nothing but the status changes is its decision
D11 (R208; log 9). -/
def Obligations.IllegalOpcodesRaiseInvalidOpcode : Prop :=
  (∀ (w : Int) (lits : List Int),
    decode (w :: lits) = .error .invalidOpcode ↔
      (w < 0 ∨ w % 100 = 0 ∨ (10 ≤ w % 100 ∧ w % 100 ≤ 98))) ∧
  ∀ (s : State) (w : Int), s.fsm = .running → 0 ≤ s.pc → s.pc < s.mem.len →
    s.mem.get s.pc.toNat = w → (w < 0 ∨ w % 100 = 0 ∨ (10 ≤ w % 100 ∧ w % 100 ≤ 98)) →
    step s = .next { s with
      fsm := .errored
      err := some { kind := .invalidOpcode, errPc := s.pc, errWord := some w, errParam := none } }

/-- R71, R73, R77: words written out from the spec's encodings and examples decode to the instructions
they stand for. -/
def Obligations.WordsOfTheSpecDecode : Prop :=
  decode [1, 0, 0, 0] = .ok (.add ⟨.positional, 0⟩ ⟨.positional, 0⟩ ⟨.positional, 0⟩) ∧
  decode [1102, 3, -4, 5] = .ok (.mul ⟨.immediate, 3⟩ ⟨.immediate, -4⟩ ⟨.positional, 5⟩) ∧
  decode [22202, 0, 1, 0] = .ok (.mul ⟨.relative, 0⟩ ⟨.relative, 1⟩ ⟨.relative, 0⟩) ∧
  decode [203, -10] = .ok (.inp ⟨.relative, -10⟩) ∧
  decode [104, -5] = .ok (.out ⟨.immediate, -5⟩) ∧
  decode [1105, 1, 7] = .ok (.jt ⟨.immediate, 1⟩ ⟨.immediate, 7⟩) ∧
  decode [1006, 20, 12] = .ok (.jf ⟨.positional, 20⟩ ⟨.immediate, 12⟩) ∧
  decode [1107, -1, 0, 9] = .ok (.lt ⟨.immediate, -1⟩ ⟨.immediate, 0⟩ ⟨.positional, 9⟩) ∧
  decode [1108, 5, 5, 0] = .ok (.eq ⟨.immediate, 5⟩ ⟨.immediate, 5⟩ ⟨.positional, 0⟩) ∧
  decode [109, 5] = .ok (.arb ⟨.immediate, 5⟩) ∧
  decode [1099] = .ok .hlt

/-- R84, R7: the cells of a well-formed instruction are Words at every width the parameters admit. -/
def Obligations.CellsOfWellFormedInstructionsAreWords : Prop :=
  ∀ (c : Config) (i : Instr), c.legal = true → i.wellFormed c = true →
    ∀ v ∈ encode i, c.fits v = true

/-! ## The step -/

/-- R102, R107: when the cells at `pc` all exist and decode to `i`, a step of a running machine is `exec` of
`i` on that same state. -/
def Obligations.StepRunsTheDecodedInstruction : Prop :=
  ∀ (s : State) (i : Instr), s.fsm = .running → 0 ≤ s.pc → s.pc + i.width ≤ s.mem.len →
    decode ((List.range i.width).map fun k => s.mem.get (s.pc.toNat + k)) = .ok i →
    step s = exec i s

/-- The model's own loading of a word (log 5, log 7): the step after it runs the word's instruction. -/
def Obligations.FetchWordIsTheNextInstruction : Prop :=
  ∀ (s : State) (nbits w : Nat) (i : Instr), s.mem.wf = true → decodeTableWord nbits w = some i →
    step (s.withFetchWord nbits w) = exec i (s.withFetchWord nbits w)

/-- R209, R102: while a run is in progress every step answers a next state, whatever the instruction does;
outside a run there is no step, and the model refuses one. -/
def Obligations.EveryStepOfARunAnswersANextState : Prop :=
  (∀ (i : Instr) (s : State), ∃ t, exec i s = .next t) ∧
  ∀ (c : Config) (s : State),
    (s.fsm = .running → ∃ t, stepIn c s = .next t) ∧
      (s.fsm ≠ .running → stepIn c s = .refused .noRunInProgress)

/-- R103, R202: a `pc` outside memory raises ProgramCounterOverrun with no word recorded. That nothing but
the status changes is the spec's decision D11 (R208; log 9). -/
def Obligations.FetchOutsideMemoryOverruns : Prop :=
  ∀ s : State, s.fsm = .running → (s.pc < 0 ∨ (s.mem.len : Int) ≤ s.pc) →
    step s = .next { s with
      fsm := .errored
      err := some { kind := .programCounterOverrun, errPc := s.pc, errWord := none, errParam := none } }

/-- R105, R202 (the spec's decision D6): an instruction whose parameter cells run off memory raises
ProgramCounterOverrun for the first missing one, before any parameter is resolved. That nothing but the
status changes is the spec's decision D11 (R208; log 9). -/
def Obligations.MissingParameterCellOverruns : Prop :=
  ∀ (s : State) (w : Int) (h : Header) (k : Fin 3), s.fsm = .running → 0 ≤ s.pc →
    s.mem.get s.pc.toNat = w → decodeWord w = some h → k.val < h.count →
    s.pc + 1 + k.val = s.mem.len →
    step s = .next { s with
      fsm := .errored
      err := some { kind := .programCounterOverrun, errPc := s.pc, errWord := some w, errParam := some k } }

/-- R207, R203, R204, R205 (the order is the spec's decisions D12, and D13 for IN): where a parameter has an
error, the first one in the order of the parameters is reported; it comes before blocking (R140) and
before the overflow of a result. That nothing but the status changes, the growth that earlier parameters
ask for included, is the spec's decision D11 (R208; log 9). -/
def Obligations.FirstParameterErrorIsReported : Prop :=
  (∀ (c : Config) (i : Instr) (s : State) (e : Trap), firstError c s i = some e →
    execIn c i s = .next { s with
      fsm := .errored
      err := some { kind := e.kind, errPc := s.pc, errWord := fetch s.mem s.pc, errParam := e.param } }) ∧
  ∀ (i : Instr) (s : State) (e : Trap), firstError Config.spec s i = some e →
    exec i s = .next { s with
      fsm := .errored
      err := some { kind := e.kind, errPc := s.pc, errWord := fetch s.mem s.pc, errParam := e.param } }

/-! ## The instructions' results -/

/-- R131: ADD stores the exact sum of its operands' old values and advances by 4. -/
def Obligations.AddStoresTheSum : Prop :=
  ∀ (s : State) (a b d : Param), readable Config.spec s a = true → readable Config.spec s b = true →
    writable Config.spec s d = true →
    Config.spec.fits (valueOf Config.spec s a + valueOf Config.spec s b) = true →
    exec (.add a b d) s = .next (stored Config.spec s [a, b, d] d
      (valueOf Config.spec s a + valueOf Config.spec s b) 4)

/-- R132: MUL stores the exact product of its operands' old values and advances by 4. -/
def Obligations.MulStoresTheProduct : Prop :=
  ∀ (s : State) (a b d : Param), readable Config.spec s a = true → readable Config.spec s b = true →
    writable Config.spec s d = true →
    Config.spec.fits (valueOf Config.spec s a * valueOf Config.spec s b) = true →
    exec (.mul a b d) s = .next (stored Config.spec s [a, b, d] d
      (valueOf Config.spec s a * valueOf Config.spec s b) 4)

/-- R170: LT stores 1 where its first operand is less than its second, signed, and 0 elsewhere. -/
def Obligations.LessThanStoresOneOrZero : Prop :=
  ∀ (s : State) (a b d : Param), readable Config.spec s a = true → readable Config.spec s b = true →
    writable Config.spec s d = true →
    exec (.lt a b d) s = .next (stored Config.spec s [a, b, d] d
      (if valueOf Config.spec s a < valueOf Config.spec s b then 1 else 0) 4)

/-- R171: EQ stores 1 where its operands are equal, as whole Words, and 0 elsewhere. -/
def Obligations.EqualsStoresOneOrZero : Prop :=
  ∀ (s : State) (a b d : Param), readable Config.spec s a = true → readable Config.spec s b = true →
    writable Config.spec s d = true →
    exec (.eq a b d) s = .next (stored Config.spec s [a, b, d] d
      (if valueOf Config.spec s a = valueOf Config.spec s b then 1 else 0) 4)

/-- R140: IN moves the front of the input queue to its target cell and advances by 2. -/
def Obligations.InputStoresTheFrontOfTheQueue : Prop :=
  ∀ (s : State) (a : Param) (v : Int) (rest : List Int), writable Config.spec s a = true →
    s.inQ = v :: rest →
    exec (.inp a) s = .next { stored Config.spec s [a] a v 2 with inQ := rest }

/-- R110: IN on an empty queue only sets `fsm` to Blocked: no input is consumed, `pc` stays, memory does not
grow, nothing else changes, and the run's result is `ok`. -/
def Obligations.InputOnAnEmptyQueueBlocks : Prop :=
  ∀ (s : State) (a : Param), writable Config.spec s a = true → s.inQ = [] →
    exec (.inp a) s = .next { s with fsm := .blocked } ∧
      runResult { s with fsm := .blocked } = some .ok

/-- R141, R145: OUT appends its operand to the output queue and advances by 2. -/
def Obligations.OutputAppendsTheOperand : Prop :=
  ∀ (s : State) (a : Param), readable Config.spec s a = true →
    exec (.out a) s = .next { s with
      mem := s.mem.setLen (lenAfter Config.spec s [a])
      pc := s.pc + 2
      outQ := s.outQ ++ [valueOf Config.spec s a] }

/-- R160, R162: JT loads its second operand, any Word, into `pc` where its first is not 0, and advances by 3
elsewhere. -/
def Obligations.JumpIfTrueSetsThePc : Prop :=
  ∀ (s : State) (a b : Param), readable Config.spec s a = true → readable Config.spec s b = true →
    exec (.jt a b) s = .next { s with
      mem := s.mem.setLen (lenAfter Config.spec s [a, b])
      pc := if valueOf Config.spec s a ≠ 0 then valueOf Config.spec s b else s.pc + 3 }

/-- R161, R162: JF loads its second operand, any Word, into `pc` where its first is 0, and advances by 3
elsewhere. -/
def Obligations.JumpIfFalseSetsThePc : Prop :=
  ∀ (s : State) (a b : Param), readable Config.spec s a = true → readable Config.spec s b = true →
    exec (.jf a b) s = .next { s with
      mem := s.mem.setLen (lenAfter Config.spec s [a, b])
      pc := if valueOf Config.spec s a = 0 then valueOf Config.spec s b else s.pc + 3 }

/-- R180: ARB adds its operand, read with the old base, to the relative base and advances by 2. -/
def Obligations.AdjustRelativeBaseAddsTheOperand : Prop :=
  ∀ (s : State) (a : Param), readable Config.spec s a = true →
    Config.spec.fits (s.rb + valueOf Config.spec s a) = true →
    exec (.arb a) s = .next { s with
      mem := s.mem.setLen (lenAfter Config.spec s [a])
      pc := s.pc + 2
      rb := s.rb + valueOf Config.spec s a }

/-- R190, R76 (`pc` not advancing is the spec's decision D10): a fetched word that is not negative and has 99
as its low two digits, whatever stands above, halts: `fsm` is Halted and nothing else changes, and the
run that ends so answers `ok` (R113, R108). -/
def Obligations.HaltOnlySetsTheStatus : Prop :=
  (∀ s : State, exec .hlt s = .next { s with fsm := .halted } ∧
    runResult { s with fsm := .halted } = some .ok) ∧
  ∀ (s : State) (w : Int), s.fsm = .running → 0 ≤ s.pc → s.pc < s.mem.len →
    s.mem.get s.pc.toNat = w → 0 ≤ w → w % 100 = 99 → step s = .next { s with fsm := .halted }

/-- R131, R132, R180, R205 (`fault` is the spec's decision D2): where a result of ADD, MUL or ARB is outside
the Word range, ArithmeticOverflow is raised with no parameter recorded. That nothing but the status
changes, the growth that the parameters ask for included, is the spec's decision D11 (R208; log 9). -/
def Obligations.ResultOverflowRaises : Prop :=
  ∀ (s : State) (a b d : Param), readable Config.spec s a = true →
    (readable Config.spec s b = true → writable Config.spec s d = true →
      (Config.spec.fits (valueOf Config.spec s a + valueOf Config.spec s b) = false →
        exec (.add a b d) s = .next { s with
          fsm := .errored
          err := some { kind := .arithmeticOverflow, errPc := s.pc, errWord := fetch s.mem s.pc, errParam := none } }) ∧
      (Config.spec.fits (valueOf Config.spec s a * valueOf Config.spec s b) = false →
        exec (.mul a b d) s = .next { s with
          fsm := .errored
          err := some { kind := .arithmeticOverflow, errPc := s.pc, errWord := fetch s.mem s.pc, errParam := none } })) ∧
    (Config.spec.fits (s.rb + valueOf Config.spec s a) = false →
      exec (.arb a) s = .next { s with
        fsm := .errored
        err := some { kind := .arithmeticOverflow, errPc := s.pc, errWord := fetch s.mem s.pc, errParam := none } })

/-- R11, R130, R205: under `wrap`, ADD, MUL and ARB never raise on their result: they leave the Word that
differs from the exact result by a multiple of `2^W`. -/
def Obligations.WrappedResultsAreCongruent : Prop :=
  ∀ (c : Config) (bits : Nat), c.legal = true → c.wordBits = some bits → c.overflowPolicy = .wrap →
    ∀ (s : State) (a b d : Param), readable c s a = true →
      (readable c s b = true → writable c s d = true →
        (∃ r, c.fits r = true ∧ (2 : Int) ^ bits ∣ r - (valueOf c s a + valueOf c s b) ∧
          execIn c (.add a b d) s = .next (stored c s [a, b, d] d r 4)) ∧
        (∃ r, c.fits r = true ∧ (2 : Int) ^ bits ∣ r - valueOf c s a * valueOf c s b ∧
          execIn c (.mul a b d) s = .next (stored c s [a, b, d] d r 4))) ∧
      ∃ r, c.fits r = true ∧ (2 : Int) ^ bits ∣ r - (s.rb + valueOf c s a) ∧
        execIn c (.arb a) s = .next { s with
          mem := s.mem.setLen (lenAfter c s [a])
          pc := s.pc + 2
          rb := r }

/-- R205: ArithmeticOverflow is never raised under `wrap` or with `WORD_BITS = INF`. -/
def Obligations.NoOverflowErrorUnderWrapOrInf : Prop :=
  ∀ (c : Config), (c.overflowPolicy = .wrap ∨ c.wordBits = none) →
    ∀ (s t : State) (e : ErrRec), stepIn c s = .next t → t.err = some e →
      s.err = some e ∨ e.kind ≠ .arithmeticOverflow

/-! ## Operands and memory -/

/-- R80, R17: a relative parameter names `rb + lit` with the base the instruction starts with. Under `fault` a
sum outside the Word range raises ArithmeticOverflow for that parameter; under `wrap` (D2) the access is at
the Word congruent to it modulo `2^W`. A sum in the Word range but negative raises AddressOutOfRange; else
the access is at the sum. `addressOf`, by which other statements name the cell, is that address. -/
def Obligations.RelativeParametersAddTheBase : Prop :=
  ∀ (c : Config) (s : State) (pending : Nat) (k : Fin 3) (lit : Int),
    (c.fits (s.rb + lit) = false → c.overflowPolicy = .fault →
      addressOf c s ⟨.relative, lit⟩ = none ∧
      resolveRead c s pending k ⟨.relative, lit⟩ = .error ⟨.arithmeticOverflow, some k⟩ ∧
      resolveWrite c s pending k ⟨.relative, lit⟩ = .error ⟨.arithmeticOverflow, some k⟩) ∧
    (∀ bits, c.fits (s.rb + lit) = false → c.overflowPolicy = .wrap → c.legal = true →
      c.wordBits = some bits →
      ∃ a, c.fits a = true ∧ (2 : Int) ^ bits ∣ a - (s.rb + lit) ∧
        addressOf c s ⟨.relative, lit⟩ = some a ∧
        resolveRead c s pending k ⟨.relative, lit⟩ = resolveRead c s pending k ⟨.positional, a⟩ ∧
        resolveWrite c s pending k ⟨.relative, lit⟩ = resolveWrite c s pending k ⟨.positional, a⟩) ∧
    (c.fits (s.rb + lit) = true → s.rb + lit < 0 →
      resolveRead c s pending k ⟨.relative, lit⟩ = .error ⟨.addressOutOfRange, some k⟩ ∧
      resolveWrite c s pending k ⟨.relative, lit⟩ = .error ⟨.addressOutOfRange, some k⟩) ∧
    (c.fits (s.rb + lit) = true →
      addressOf c s ⟨.relative, lit⟩ = some (s.rb + lit) ∧
      resolveRead c s pending k ⟨.relative, lit⟩ =
        resolveRead c s pending k ⟨.positional, s.rb + lit⟩ ∧
      resolveWrite c s pending k ⟨.relative, lit⟩ =
        resolveWrite c s pending k ⟨.positional, s.rb + lit⟩)

/-- R133, R78: for every read operand of every instruction, a positional operand in an existing cell and an
immediate operand with that cell's value give the same next state. -/
def Obligations.ImmediateAndPositionalOperandsAgree : Prop :=
  ∀ (c : Config) (s : State) (lit v : Int), 0 ≤ lit → lit < s.mem.len → s.mem.get lit.toNat = v →
    ∀ (p q x d : Param), p = ⟨.positional, lit⟩ → q = ⟨.immediate, v⟩ →
      execIn c (.add p x d) s = execIn c (.add q x d) s ∧
      execIn c (.add x p d) s = execIn c (.add x q d) s ∧
      execIn c (.mul p x d) s = execIn c (.mul q x d) s ∧
      execIn c (.mul x p d) s = execIn c (.mul x q d) s ∧
      execIn c (.lt p x d) s = execIn c (.lt q x d) s ∧
      execIn c (.lt x p d) s = execIn c (.lt x q d) s ∧
      execIn c (.eq p x d) s = execIn c (.eq q x d) s ∧
      execIn c (.eq x p d) s = execIn c (.eq x q d) s ∧
      execIn c (.jt p x) s = execIn c (.jt q x) s ∧
      execIn c (.jt x p) s = execIn c (.jt x q) s ∧
      execIn c (.jf p x) s = execIn c (.jf q x) s ∧
      execIn c (.jf x p) s = execIn c (.jf x q) s ∧
      execIn c (.out p) s = execIn c (.out q) s ∧
      execIn c (.arb p) s = execIn c (.arb q) s

/-- R66, R238, R237: what an instruction stores is what the next fetch and the next data read of that cell
give, its own cells included. -/
def Obligations.StoredWordIsFetchedNext : Prop :=
  ∀ (s : State) (a b d : Param), s.mem.wf = true → readable Config.spec s a = true →
    readable Config.spec s b = true → writable Config.spec s d = true →
    (∀ (i : Instr) (v : Int),
      ((i = .add a b d ∧ v = valueOf Config.spec s a + valueOf Config.spec s b ∧ Config.spec.fits v = true) ∨
       (i = .mul a b d ∧ v = valueOf Config.spec s a * valueOf Config.spec s b ∧ Config.spec.fits v = true) ∨
       (i = .lt a b d ∧ v = if valueOf Config.spec s a < valueOf Config.spec s b then 1 else 0) ∨
       (i = .eq a b d ∧ v = if valueOf Config.spec s a = valueOf Config.spec s b then 1 else 0) ∨
       (i = .inp d ∧ s.inQ.head? = some v)) →
      ∃ t, exec i s = .next t ∧ fetch t.mem (targetOf Config.spec s d : Int) = some v ∧
        valueOf Config.spec t ⟨.positional, (targetOf Config.spec s d : Int)⟩ = v)

/-- R54: under `strict`, `memLen` is `max(programLength, 8192)` after CONSTRUCT and no step and no command
changes it, and an address below 0 or from `memLen` on raises AddressOutOfRange, for a read and for a
write. -/
def Obligations.StrictMemoryNeverGrows : Prop :=
  ∀ (c : Config), c.memPolicy = .strict →
    (∀ (program input : List Int) (s : State), construct c program input = .next s →
      s.lenFixed (max program.length 8192)) ∧
    (∀ (n : Nat) (s t : State), s.lenFixed n → stepIn c s = .next t → t.lenFixed n) ∧
    (∀ (n : Nat) (cmd : Command) (s t : State) (r : Response), s.lenFixed n →
      command c cmd s = .next (t, r) → t.lenFixed n) ∧
    ∀ (s : State) (pending : Nat) (k : Fin 3) (a : Int), (a < 0 ∨ (s.mem.len : Int) ≤ a) →
      resolveRead c s pending k ⟨.positional, a⟩ = .error ⟨.addressOutOfRange, some k⟩ ∧
      resolveWrite c s pending k ⟨.positional, a⟩ = .error ⟨.addressOutOfRange, some k⟩

/-- R55, R22, R68 (growth on reads is the spec's decision D4): a step that completes leaves `memLen` as long
as the cells its parameters name ask for; it never shrinks, never passes `ADDR_LIMIT`, and a step that
raises (the spec's decision D11, log 9), blocks or halts leaves it alone. -/
def Obligations.MemoryGrowsToTheCellsUsed : Prop :=
  ∀ (c : Config) (s t : State), stepIn c s = .next t →
    s.mem.len ≤ t.mem.len ∧
    (s.mem.len ≤ c.addrLimit → t.mem.len ≤ c.addrLimit) ∧
    (t.fsm ≠ .running → t.mem.len = s.mem.len) ∧
    ∀ i, fetchInstr s = .ok i → t.fsm = .running →
      t.mem.len = lenAfter c s (i.params.map fun q => q.2)

/-! ## Frames -/

/-- R39: what ADD, MUL, LT and EQ leave unchanged, in every form, errors included (where the frame of an
error is the spec's decision D11, R208, log 9). -/
def Obligations.StoringInstructionsFrame : Prop :=
  ∀ (s t : State) (a b d : Param) (i : Instr),
    (i = .add a b d ∨ i = .mul a b d ∨ i = .lt a b d ∨ i = .eq a b d) → exec i s = .next t →
    t.rb = s.rb ∧ t.inQ = s.inQ ∧ t.outQ = s.outQ ∧ t.image0 = s.image0 ∧
      statusKeptOrError s t ∧ cellsKept Config.spec i s t

/-- R39: what IN leaves unchanged: only the front of the input queue goes, and one cell may change; where it
blocks or raises (the spec's decision D11, R208, log 9), nothing but the status changes. -/
def Obligations.InputFrame : Prop :=
  ∀ (s t : State) (a : Param), exec (.inp a) s = .next t →
    t.rb = s.rb ∧ t.outQ = s.outQ ∧ t.image0 = s.image0 ∧
      (t.inQ = s.inQ ∨ t.inQ = s.inQ.tail) ∧
      (statusKeptOrError s t ∨ t = { s with fsm := .blocked }) ∧
      cellsKept Config.spec (.inp a) s t

/-- R39: what the instructions that store no cell leave unchanged: every cell of memory, the input queue,
the output queue but for OUT's append, and the relative base but for ARB; and where one raises, nothing
but the status changes (the spec's decision D11, R208, log 9). -/
def Obligations.NonStoringInstructionsFrame : Prop :=
  ∀ (s t : State) (a b : Param) (i : Instr),
    (i = .out a ∨ i = .jt a b ∨ i = .jf a b ∨ i = .arb a) → exec i s = .next t →
    (∀ x, t.mem.get x = s.mem.get x) ∧ t.inQ = s.inQ ∧ t.image0 = s.image0 ∧ statusKeptOrError s t ∧
      (i ≠ .arb a → t.rb = s.rb) ∧
      (i ≠ .out a → t.outQ = s.outQ) ∧
      (t.outQ = s.outQ ∨ t.outQ = s.outQ ++ [valueOf Config.spec s a])

/-! ## The machine as a whole -/

/-- R208, R209 (precise errors are the spec's decision D11): a step that ends in an error changes nothing but
the status, and records `pc` and the word fetched there. -/
def Obligations.ErrorsArePrecise : Prop :=
  ∀ (c : Config) (s t : State), stepIn c s = .next t → t.fsm = .errored →
    sameButStatus s t ∧
      ∃ e, t.err = some e ∧ e.errPc = s.pc ∧ e.errWord = fetch s.mem s.pc ∧
        runResult t = some (.error e)

/-- R106: a step that goes on advances `pc` by the instruction's width, or loads the target of a taken jump;
the advance never leaves the Word range; a step that halts (the spec's decision D10), blocks or raises
(its decision D11, R208, log 9) leaves `pc`. -/
def Obligations.ProgramCounterAdvancesByTheWidth : Prop :=
  ∀ (c : Config) (s t : State), stepIn c s = .next t →
    (t.fsm ≠ .running → t.pc = s.pc) ∧
    ∀ i, fetchInstr s = .ok i →
      (t.fsm = .running → t.pc = (jumpTarget c s i).getD (s.pc + i.width)) ∧
      (c.legal = true → s.mem.len ≤ c.addrLimit → c.fits (s.pc + i.width) = true)

/-- R109: the transitions of the state machine are those of the table, for CONSTRUCT, for steps and for the
caller's commands. Beside the table: an IN blocks only with a usable target (R140, the spec's decision
D13, log 13); entering Errored changes nothing else (R208, D11, log 9); no command is accepted in a run
(R101, log 19); and the trace toggle leaves `fsm` (R217, D27, log 21). -/
def Obligations.TransitionsAreThoseOfTheTable : Prop :=
  ∀ c : Config,
    (∀ (program input : List Int) (t : State), construct c program input = .next t → t.fsm = .ready) ∧
    (∀ s t : State, stepIn c s = .next t →
      s.fsm = .running ∧ t.fsm ≠ .ready ∧
      (t.fsm = .blocked ↔ ∃ a, fetchInstr s = .ok (.inp a) ∧ writable c s a = true ∧ s.inQ = []) ∧
      (t.fsm = .halted ↔ fetchInstr s = .ok .hlt) ∧
      (t.fsm = .errored ↔ ∃ e, t = raiseError s e)) ∧
    (∀ (cmd : Command) (s t : State) (r : Response), command c cmd s = .next (t, r) →
      s.fsm ≠ .running ∧
      match cmd with
      | .run _ => (s.fsm = .ready ∨ s.fsm = .blocked) ∧ t.fsm = .running
      | .reset => t.fsm = if c.resetClearsStatus then .ready else s.fsm
      | .drain => t.fsm = s.fsm
      | .isHalted => t.fsm = s.fsm
      | .trace _ => t.fsm = s.fsm) ∧
    ∀ (xs : List Int) (s : State), (s.fsm = .halted ∨ s.fsm = .errored) →
      command c (.run xs) s = .refused .terminal

/-- R26: only CONSTRUCT and RUN append to the input queue, at its back; only IN takes from it, its front (that
an IN which completes takes it is InputStoresTheFrontOfTheQueue); only RESET empties it; and it holds
Words. That the trace toggle leaves it is R217 (D27, log 21). -/
def Obligations.InputQueueHasTwoWriters : Prop :=
  ∀ c : Config,
    (∀ (program input : List Int) (t : State), construct c program input = .next t → t.inQ = input) ∧
    (∀ s t : State, stepIn c s = .next t →
      t.inQ = s.inQ ∨ ∃ a v, fetchInstr s = .ok (.inp a) ∧ s.inQ = v :: t.inQ) ∧
    (∀ (cmd : Command) (s t : State) (r : Response), command c cmd s = .next (t, r) →
      match cmd with
      | .run xs => t.inQ = s.inQ ++ xs
      | .reset => t.inQ = []
      | .drain => t.inQ = s.inQ
      | .isHalted => t.inQ = s.inQ
      | .trace _ => t.inQ = s.inQ) ∧
    (c.legal = true → ∀ s t : State, s.Inv c →
      (stepIn c s = .next t ∨ ∃ cmd r, command c cmd s = .next (t, r)) →
      ∀ v ∈ t.inQ, c.fits v = true)

/-- R27: only OUT appends to the output queue, at its back; DRAIN returns it whole and empties it in one
operation; RESET empties it; and it holds Words. That an OUT which completes appends is
OutputAppendsTheOperand; that the trace toggle leaves the queue is R217 (D27, log 21). -/
def Obligations.OutputQueueWriters : Prop :=
  ∀ c : Config,
    (∀ (program input : List Int) (t : State), construct c program input = .next t → t.outQ = []) ∧
    (∀ s t : State, stepIn c s = .next t →
      t.outQ = s.outQ ∨ ∃ a, fetchInstr s = .ok (.out a) ∧ t.outQ = s.outQ ++ [valueOf c s a]) ∧
    (∀ (cmd : Command) (s t : State) (r : Response), command c cmd s = .next (t, r) →
      match cmd with
      | .run _ => t.outQ = s.outQ
      | .reset => t.outQ = []
      | .drain => t.outQ = [] ∧ r = .words s.outQ
      | .isHalted => t.outQ = s.outQ
      | .trace _ => t.outQ = s.outQ) ∧
    (c.legal = true → ∀ s t : State, s.Inv c →
      (stepIn c s = .next t ∨ ∃ cmd r, command c cmd s = .next (t, r)) →
      ∀ v ∈ t.outQ, c.fits v = true)

/-- R25: no instruction but ARB changes the relative base, and no command but RESET with
`RESET_CLEARS_RB`. -/
def Obligations.OnlyArbAndResetWriteTheBase : Prop :=
  ∀ c : Config,
    (∀ s t : State, stepIn c s = .next t → t.rb = s.rb ∨ ∃ a, fetchInstr s = .ok (.arb a)) ∧
    ∀ (cmd : Command) (s t : State) (r : Response), command c cmd s = .next (t, r) →
      t.rb = s.rb ∨ (cmd = .reset ∧ c.resetClearsRb = true ∧ t.rb = 0)

/-- R181: two ARB instructions add, and a relative parameter then names the base plus both plus its own
literal. -/
def Obligations.AdjustmentsOfTheBaseAdd : Prop :=
  ∀ (s : State) (x y : Int), Config.spec.fits (s.rb + x) = true →
    Config.spec.fits (s.rb + x + y) = true →
    ∃ t u, exec (.arb ⟨.immediate, x⟩) s = .next t ∧ exec (.arb ⟨.immediate, y⟩) t = .next u ∧
      u.rb = s.rb + x + y ∧
      ∀ o, Config.spec.fits (s.rb + x + y + o) = true →
        addressOf Config.spec u ⟨.relative, o⟩ = some (s.rb + x + y + o)

/-- R89 (the pseudo-instructions are the spec's decision D22): JMP, MOV and NOP assemble to the cells of
their expansions, and running those loads `pc`, copies a word, and only advances `pc`. -/
def Obligations.PseudoInstructionsDoWhatTheyName : Prop :=
  (∀ (prog : List AsmLine) (t x d : AsmOperand) (pt px pd : Param),
    t.resolve prog = some pt → x.resolve prog = some px → d.resolve prog = some pd →
    AsmLine.cells prog (.jmp t) = some (encode (.jt ⟨.immediate, 1⟩ pt)) ∧
    AsmLine.cells prog (.mov x d) = some (encode (.add px ⟨.immediate, 0⟩ pd)) ∧
    AsmLine.cells prog .nop = some (encode (.arb ⟨.immediate, 0⟩)) ∧
    AsmLine.cells prog .halt = some (encode .hlt)) ∧
  ∀ (s : State) (p d : Param), readable Config.spec s p = true →
    exec (.jt ⟨.immediate, 1⟩ p) s = .next { s with
      mem := s.mem.setLen (lenAfter Config.spec s [p])
      pc := valueOf Config.spec s p } ∧
    (writable Config.spec s d = true → Config.spec.fits (valueOf Config.spec s p) = true →
      exec (.add p ⟨.immediate, 0⟩ d) s =
        .next (stored Config.spec s [p, d] d (valueOf Config.spec s p) 4)) ∧
    (Config.spec.fits s.rb = true →
      exec (.arb ⟨.immediate, 0⟩) s = .next { s with pc := s.pc + 2 })

/-! ## The invariant -/

/-- R21, R22, R23, R24, R26, R27, R30, R37, R51: every step keeps the invariant (memory canonical and of legal
length, every cell, both registers and both queues holding Words, the error record exactly when
Errored, the image exactly when RESET restores it), at any admitted parameters and for `step`. -/
def Obligations.StepKeepsTheInvariant : Prop :=
  (∀ (c : Config) (s t : State), c.legal = true → s.Inv c → stepIn c s = .next t → t.Inv c) ∧
    ∀ s t : State, s.Inv Config.spec → step s = .next t → t.Inv Config.spec

/-- R38: the state after reset meets the invariant. -/
def Obligations.ResetMeetsTheInvariant : Prop := State.reset.Inv Config.spec

/-- R230, R231, R232: CONSTRUCT makes a state that meets the invariant, and every command keeps it. -/
def Obligations.CommandsKeepTheInvariant : Prop :=
  ∀ c : Config, c.legal = true →
    (∀ (program input : List Int) (t : State), construct c program input = .next t → t.Inv c) ∧
    ∀ (cmd : Command) (s t : State) (r : Response), s.Inv c → command c cmd s = .next (t, r) → t.Inv c

/-! ## The caller -/

/-- R230, R38 (the register values are the spec's decision D24): what CONSTRUCT leaves, for admitted data. -/
def Obligations.ConstructLoadsTheProgram : Prop :=
  ∀ (c : Config) (program input : List Int), admits c program = true → admits c input = true →
    program.length ≤ c.addrLimit →
    ∃ s, construct c program input = .next s ∧ s.mem.len = max program.length 8192 ∧
      (∀ a (h : a < program.length), s.mem.get a = program[a]) ∧
      (∀ a, program.length ≤ a → s.mem.get a = 0) ∧
      s.pc = 0 ∧ s.rb = 0 ∧ s.inQ = input ∧ s.outQ = [] ∧ s.fsm = .ready ∧ s.err = none ∧
      s.image0 = if c.resetRestoresMemory then some s.mem else none

/-- The model's choice (log 6): the state after reset is CONSTRUCT of the empty program with no input. -/
def Obligations.ResetIsTheEmptyProgram : Prop :=
  construct Config.spec [] [] = .next State.reset

/-- R231, R112 (these refusals are the spec's decisions D16 and D25): when CONSTRUCT and RUN are refused, and
what RUN does where it is not (R108, R143). That every command is refused during a run is deduced from R101
(log 19). Between runs the trace toggle changes no state at all (R217, D27, log 21). -/
def Obligations.RunAppendsItsInputOrIsRefused : Prop :=
  ∀ c : Config,
    (∀ program input : List Int,
      (admits c program = false ∨ admits c input = false ∨ c.addrLimit < program.length) →
      construct c program input = .refused .dataNotAdmitted) ∧
    ∀ (xs : List Int) (s : State),
      ((s.fsm = .ready ∨ s.fsm = .blocked) →
        (admits c xs = true →
          command c (.run xs) s = .next ({ s with inQ := s.inQ ++ xs, fsm := .running }, .started)) ∧
        (admits c xs = false → command c (.run xs) s = .refused .dataNotAdmitted)) ∧
      ((s.fsm = .halted ∨ s.fsm = .errored) → command c (.run xs) s = .refused .terminal) ∧
      (s.fsm = .running → ∀ cmd, command c cmd s = .refused .runInProgress) ∧
      (s.fsm ≠ .running → ∀ b, command c (.trace b) s = .next (s, .done))

/-- R144 (accepting it in every state between runs is the spec's decision D18): DRAIN returns the whole output
queue and empties it; a second DRAIN returns nothing. -/
def Obligations.DrainReturnsTheOutputOnce : Prop :=
  ∀ (c : Config) (s : State), s.fsm ≠ .running →
    command c .drain s = .next ({ s with outQ := [] }, .words s.outQ) ∧
      command c .drain { s with outQ := [] } = .next ({ s with outQ := [] }, .words [])

/-- R232, R38 (the three parameters are the spec's decision D19): what RESET leaves, at every value of them. -/
def Obligations.ResetCommandEffect : Prop :=
  ∀ (c : Config) (s : State), s.fsm ≠ .running →
    ∃ t, command c .reset s = .next (t, .done) ∧ t.pc = 0 ∧ t.inQ = [] ∧ t.outQ = [] ∧
      t.image0 = s.image0 ∧
      (c.resetRestoresMemory = false → t.mem = s.mem) ∧
      (c.resetRestoresMemory = true → ∀ m, s.image0 = some m → t.mem = m) ∧
      t.rb = (if c.resetClearsRb then 0 else s.rb) ∧
      t.fsm = (if c.resetClearsStatus then .ready else s.fsm) ∧
      t.err = (if c.resetClearsStatus then none else s.err)

/-- R114: IS_HALTED answers whether `fsm` is Halted and changes nothing. -/
def Obligations.IsHaltedAnswersTheStatus : Prop :=
  ∀ (c : Config) (s : State), s.fsm ≠ .running →
    ∃ b, command c .isHalted s = .next (s, .flag b) ∧ (b = true ↔ s.fsm = .halted) ∧
      ((s.fsm = .ready ∨ s.fsm = .blocked ∨ s.fsm = .errored) → b = false)

/-- R31, R28, R200 (the layout and the codes are the spec's decision D14): STATUS holds the FSM code in bits 2
to 0 and the error kind in bits 6 to 3, and bit 7 reads 0. The codes stand here in figures. -/
def Obligations.StatusRegisterLayout : Prop :=
  ∀ s : State,
    (s.statusReg.toNat % 8 = match s.fsm with
      | .ready => 0
      | .running => 1
      | .blocked => 2
      | .halted => 3
      | .errored => 4) ∧
    (s.statusReg.toNat / 8 % 16 = match s.err with
      | none => 0
      | some e => match e.kind with
        | .invalidOpcode => 1
        | .programCounterOverrun => 2
        | .illegalAddressingMode => 3
        | .addressOutOfRange => 4
        | .arithmeticOverflow => 5) ∧
    s.statusReg.getLsbD 7 = false

/-- R31, R30 (the layout is the spec's decision D14): while an error is recorded, ERR_PC, ERR_WORD and
ERR_PARAM read as its fields, each valid flag set exactly where the field is present. While none is, their
values are free (log 17) and nothing is claimed. -/
def Obligations.ErrorRegistersReadTheRecord : Prop :=
  ∀ (s : State) (e : ErrRec) (reading : Nat), s.err = some e →
    s.errPcReg reading = e.errPc ∧
    ((s.errWordReg reading).2 = true ↔ e.errWord ≠ none) ∧
    (∀ w, e.errWord = some w → (s.errWordReg reading).1 = w) ∧
    ((s.errParamReg reading).2 = true ↔ e.errParam ≠ none) ∧
    ∀ k, e.errParam = some k → (s.errParamReg reading).1.toNat = k.val

/-- R235, R115, R108, R116 (a RUN as a relation on states, without fuel, is the model's choice, log 16): a run
either ends or diverges, never both; it ends in one state only, and that
state is Blocked, Halted or Errored, and final, without an error, exactly when it is Halted. -/
def Obligations.EveryRunEndsOnceOrDiverges : Prop :=
  ∀ (c : Config) (s : State), s.fsm = .running →
    ((∃ t, RunsTo c s t) ∨ Diverges c s) ∧
    ¬ ((∃ t, RunsTo c s t) ∧ Diverges c s) ∧
    (∀ t u, RunsTo c s t → RunsTo c s u → t = u) ∧
    (∀ t, RunsTo c s t → t.fsm = .blocked ∨ t.fsm = .halted ∨ t.fsm = .errored) ∧
    ∀ t, RunsTo c s t → s.err = none → (t.Final ↔ t.fsm = .halted)

/-- R118 (a RUN as a relation on states is the model's choice, log 16): giving the input later, across any number of RUNs that end Blocked and with or without DRAINs
between them, ends in the state that giving it all in the first RUN ends in, the drained words counted
as still queued; and input given at CONSTRUCT counts as given in the first RUN. -/
def Obligations.InputTimingDoesNotMatter : Prop :=
  ∀ c : Config,
    (∀ (s u : State) (xss : List (List Int)) (out : List Int), RunsAcross c s xss out u →
      Run c xss.flatten s { u with outQ := out ++ u.outQ }) ∧
    ∀ (program xs ys : List Int) (t : State), admits c xs = true →
      (Run c ys (constructed c program xs) t ↔ Run c (xs ++ ys) (constructed c program []) t)
end

