-- ==== Sys2Proof/Laws/Config.lean ====
section
/-!
SUPPORT. The Word range and the overflow check (R7, R15, R17).
-/

namespace Sys2Proof.Machine

@[simp] theorem spec_wordBits : Config.spec.wordBits = some 64 := rfl

@[simp] theorem spec_memPolicy : Config.spec.memPolicy = .grow := rfl

@[simp] theorem spec_addrLimit : Config.spec.addrLimit = 4294967296 := by decide

@[simp] theorem spec_overflowPolicy : Config.spec.overflowPolicy = .fault := rfl

@[simp] theorem spec_resetRestoresMemory : Config.spec.resetRestoresMemory = false := rfl

/-- The Word range of this spec, in figures. -/
theorem spec_fits (v : Int) :
    Config.spec.fits v = true ↔ -9223372036854775808 ≤ v ∧ v ≤ 9223372036854775807 := by
  have hmin : Config.wmin 64 = -9223372036854775808 := by decide
  have hmax : Config.wmax 64 = 9223372036854775807 := by decide
  simp [Config.fits, hmin, hmax]

theorem spec_legal : Config.spec.legal = true := by decide

theorem fits_inf {c : Config} (h : c.wordBits = none) (v : Int) : c.fits v = true := by
  simp [Config.fits, h]

theorem fits_some {c : Config} {w : Nat} (h : c.wordBits = some w) (v : Int) :
    c.fits v = true ↔ Config.wmin w ≤ v ∧ v ≤ Config.wmax w := by
  simp [Config.fits, h]

theorem legal_addrLimit {c : Config} (h : c.legal = true) : Config.memMin ≤ c.addrLimit := by
  simp only [Config.legal, Bool.and_eq_true, decide_eq_true_eq] at h
  exact h.1

theorem legal_wordBits {c : Config} {w : Nat} (h : c.legal = true) (hw : c.wordBits = some w) :
    16 ≤ w ∧ (c.addrLimit : Int) ≤ Config.wmax w - 3 := by
  simp only [Config.legal, hw, Bool.and_eq_true, decide_eq_true_eq] at h
  exact h.2

/-- Every width of 16 bits or more holds -32768 to 32767. -/
theorem small_fits {c : Config} (h : c.legal = true) {v : Int} (h1 : -32768 ≤ v) (h2 : v ≤ 32767) :
    c.fits v = true := by
  cases hw : c.wordBits with
  | none => exact fits_inf hw v
  | some w =>
    have hl := (legal_wordBits h hw).1
    have hp : (2 : Int) ^ 15 ≤ 2 ^ (w - 1) := pow_le_pow_right₀ (by norm_num) (by omega)
    rw [fits_some hw, Config.wmin, Config.wmax]
    norm_num at hp
    omega

/-- Words up to three past the last address fit, so `pc + width` never overflows (R10, R106). -/
theorem address_fits {c : Config} (h : c.legal = true) {v : Int} (h1 : 0 ≤ v)
    (h2 : v ≤ (c.addrLimit : Int) + 3) : c.fits v = true := by
  cases hw : c.wordBits with
  | none => exact fits_inf hw v
  | some w =>
    have hl := (legal_wordBits h hw).2
    have hp : (0 : Int) < 2 ^ (w - 1) := by positivity
    rw [fits_some hw, Config.wmin]
    omega

theorem chk_of_fits {c : Config} {v : Int} (h : c.fits v = true) : chk c v = some v := by
  simp [chk, h]

theorem chk_fault {c : Config} {v : Int} (h : c.fits v = false) (hp : c.overflowPolicy = .fault) :
    chk c v = none := by
  simp [chk, h, hp]

theorem chk_wrap {c : Config} {v : Int} (h : c.fits v = false) (hp : c.overflowPolicy = .wrap) :
    chk c v = some (wrapWord c v) := by
  simp [chk, h, hp]

/-- The wrapped value is in the Word range (R11). -/
theorem wrapWord_fits {c : Config} (hl : c.legal = true) (v : Int) : c.fits (wrapWord c v) = true := by
  cases hw : c.wordBits with
  | none => exact fits_inf hw _
  | some w =>
    have h16 := (legal_wordBits hl hw).1
    have hpow : (2 : Int) ^ w = 2 * 2 ^ (w - 1) := by
      rw [← pow_succ', Nat.sub_add_cancel (by omega)]
    have hpos : (0 : Int) < 2 ^ (w - 1) := by positivity
    have h0 := Int.emod_nonneg (v - Config.wmin w) (b := 2 ^ w) (by omega)
    have h1 := Int.emod_lt_of_pos (v - Config.wmin w) (b := 2 ^ w) (by omega)
    rw [fits_some hw]
    simp only [wrapWord, hw, Config.wmin, Config.wmax] at *
    omega

/-- The wrapped value differs from the value by a multiple of `2^W` (R11, R17). -/
theorem wrapWord_dvd {c : Config} {w : Nat} (h : c.wordBits = some w) (v : Int) :
    (2 : Int) ^ w ∣ wrapWord c v - v := by
  have hd := Int.emod_add_mul_ediv (v - Config.wmin w) (2 ^ w)
  exact ⟨-((v - Config.wmin w) / 2 ^ w), by simp only [wrapWord, h]; linarith⟩

/-- What `chk` answers is a Word. -/
theorem chk_fits {c : Config} (hl : c.legal = true) {v r : Int} (h : chk c v = some r) :
    c.fits r = true := by
  unfold chk at h
  split at h
  · cases h; assumption
  · split at h
    · cases h
    · cases h; exact wrapWord_fits hl v

/-- `chk` fails only under `fault`, on a value outside the Word range (R17). -/
theorem chk_none {c : Config} {v : Int} (h : chk c v = none) :
    c.fits v = false ∧ c.overflowPolicy = .fault := by
  unfold chk at h
  split at h
  · cases h
  · rename_i hf
    split at h
    · exact ⟨by simpa using hf, by assumption⟩
    · cases h

end Sys2Proof.Machine
end

