-- ==== Sys2Proof/Laws/Decode.lean ====
section
/-!
SUPPORT. The small lemmas of the decoder and the encoder.
-/

namespace Sys2Proof

@[simp] theorem Mode.ofDigit_digit (m : Mode) : Mode.ofDigit m.digit = m := by
  cases m with
  | positional => rfl
  | immediate => rfl
  | relative => rfl
  | illegal e =>
    simp only [Mode.digit, Mode.ofDigit, Mode.illegal.injEq]
    exact Fin.ext (Nat.mod_eq_of_lt e.isLt)

theorem Mode.digit_lt (m : Mode) : m.digit < 10 := by
  cases m with
  | illegal e => have := e.isLt; simp only [Mode.digit]; omega
  | _ => decide

/-- The digit of the mode a decimal digit stands for is that digit. -/
theorem Mode.digit_ofDigit {d : Nat} (h : d < 10) : (Mode.ofDigit d).digit = d := by
  match d, h with
  | 0, _ => rfl
  | 1, _ => rfl
  | 2, _ => rfl
  | d + 3, h => simp only [Mode.ofDigit, Mode.digit]; omega

@[simp] theorem Opcode.ofCode_code (op : Opcode) : Opcode.ofCode op.code = some op := by
  cases op <;> rfl

theorem Opcode.code_lt (op : Opcode) : op.code < 100 := by cases op <;> decide

/-- An `OP` number that selects an operation is that operation's code (R73). -/
theorem Opcode.code_of_ofCode {n : Nat} {op : Opcode} (h : Opcode.ofCode n = some op) :
    op.code = n := by
  unfold Opcode.ofCode at h
  split at h <;> first | cases h; rfl | cases h

/-- The format of an instruction's operation is the access list of its parameters (R74). -/
theorem Instr.format_opcode (i : Instr) : i.opcode.format = i.params.map fun q => q.1 := by
  cases i <;> rfl

@[simp] theorem encode_length (i : Instr) : (encode i).length = i.width := by
  simp [encode, Instr.width, Nat.add_comm]

@[simp] theorem cellsOfBits_length (w n : Nat) : (cellsOfBits w n).length = n := by
  induction n generalizing w with
  | zero => rfl
  | succ n ih => simp [cellsOfBits, ih]

/-! ## The decoder looks at the instruction's own cells only -/

theorem paramAt_append {h : Header} {lits : List Int} {k : Fin 3} {p : Param} (rest : List Int)
    (hp : paramAt h lits k = .ok p) : paramAt h (lits ++ rest) k = .ok p := by
  unfold paramAt at hp ⊢
  cases hl : lits[k.val]? with
  | none => simp [hl] at hp
  | some v =>
    have hk : k.val < lits.length := (List.getElem?_eq_some_iff.1 hl).1
    rw [List.getElem?_append_left hk, hl]
    simpa [hl] using hp

theorem paramAt_ok {h : Header} {lits : List Int} {k : Fin 3} {p : Param}
    (hp : paramAt h lits k = .ok p) : k.val < lits.length ∧ lits[k.val]? = some p.lit := by
  unfold paramAt at hp
  split at hp
  · cases hp
  · rename_i v hv
    cases hp
    exact ⟨(List.getElem?_eq_some_iff.1 hv).1, hv⟩

theorem decodeOne_ok {f : Param → Instr} {h : Header} {lits : List Int} {i : Instr}
    (hd : decodeOne f h lits = .ok i) : ∃ a, paramAt h lits 0 = .ok a ∧ i = f a := by
  unfold decodeOne at hd
  split at hd
  · cases hd
  · cases hd; exact ⟨_, by assumption, rfl⟩

theorem decodeTwo_ok {f : Param → Param → Instr} {h : Header} {lits : List Int} {i : Instr}
    (hd : decodeTwo f h lits = .ok i) :
    ∃ a b, paramAt h lits 0 = .ok a ∧ paramAt h lits 1 = .ok b ∧ i = f a b := by
  unfold decodeTwo at hd
  split at hd
  · cases hd
  · split at hd
    · cases hd
    · cases hd; exact ⟨_, _, by assumption, by assumption, rfl⟩

theorem decodeThree_ok {f : Param → Param → Param → Instr} {h : Header} {lits : List Int} {i : Instr}
    (hd : decodeThree f h lits = .ok i) :
    ∃ a b d, paramAt h lits 0 = .ok a ∧ paramAt h lits 1 = .ok b ∧ paramAt h lits 2 = .ok d ∧
      i = f a b d := by
  unfold decodeThree at hd
  split at hd
  · cases hd
  · split at hd
    · cases hd
    · split at hd
      · cases hd
      · cases hd; exact ⟨_, _, _, by assumption, by assumption, by assumption, rfl⟩

/-- The parameters of a decoded instruction: parameter `k` is `paramAt` of its number. -/
theorem decodeParams_ok {h : Header} {lits : List Int} {i : Instr} (hd : decodeParams h lits = .ok i) :
    i.opcode = h.op ∧
      ∀ k (hk : k < i.params.length),
        ∃ j : Fin 3, j.val = k ∧ paramAt h lits j = .ok (i.params[k]'hk).2 := by
  unfold decodeParams at hd
  split at hd
  case h_10 ho => cases hd; exact ⟨ho.symm, fun k hk => absurd hk (by simp [Instr.params])⟩
  all_goals rename_i ho
  all_goals
    first
    | obtain ⟨a, ha, rfl⟩ := decodeOne_ok hd
      refine ⟨ho.symm, fun k hk => ?_⟩
      match k, hk with
      | 0, _ => exact ⟨0, rfl, ha⟩
    | obtain ⟨a, b, ha, hb, rfl⟩ := decodeTwo_ok hd
      refine ⟨ho.symm, fun k hk => ?_⟩
      match k, hk with
      | 0, _ => exact ⟨0, rfl, ha⟩
      | 1, _ => exact ⟨1, rfl, hb⟩
    | obtain ⟨a, b, d, ha, hb, hd', rfl⟩ := decodeThree_ok hd
      refine ⟨ho.symm, fun k hk => ?_⟩
      match k, hk with
      | 0, _ => exact ⟨0, rfl, ha⟩
      | 1, _ => exact ⟨1, rfl, hb⟩
      | 2, _ => exact ⟨2, rfl, hd'⟩

theorem decodeParams_append {h : Header} {lits : List Int} {i : Instr} (rest : List Int)
    (hd : decodeParams h lits = .ok i) : decodeParams h (lits ++ rest) = .ok i := by
  unfold decodeParams at hd ⊢
  split at hd
  case h_10 => exact hd
  all_goals
    first
    | obtain ⟨a, ha, rfl⟩ := decodeOne_ok hd
      simp only [decodeOne, paramAt_append rest ha]
    | obtain ⟨a, b, ha, hb, rfl⟩ := decodeTwo_ok hd
      simp only [decodeTwo, paramAt_append rest ha, paramAt_append rest hb]
    | obtain ⟨a, b, d, ha, hb, hd', rfl⟩ := decodeThree_ok hd
      simp only [decodeThree, paramAt_append rest ha, paramAt_append rest hb, paramAt_append rest hd']

/-- A decoded list of cells: its opcode word decodes, and its parameters come from the cells behind. -/
theorem decode_ok {cells : List Int} {i : Instr} (hd : decode cells = .ok i) :
    ∃ w lits h, cells = w :: lits ∧ decodeWord w = some h ∧ decodeParams h lits = .ok i := by
  cases cells with
  | nil => cases hd
  | cons w lits =>
    simp only [decode] at hd
    split at hd
    · cases hd
    · exact ⟨w, lits, _, rfl, by assumption, hd⟩

/-- Cells behind an instruction do not change what it decodes to. -/
theorem decode_append {cells : List Int} {i : Instr} (rest : List Int) (hd : decode cells = .ok i) :
    decode (cells ++ rest) = .ok i := by
  obtain ⟨w, lits, h, rfl, hw, hp⟩ := decode_ok hd
  simp only [List.cons_append, decode, hw, decodeParams_append rest hp]

/-- A decoded instruction's cells are all there, and its literals are among them. -/
theorem decode_ok_cells {cells : List Int} {i : Instr} (hd : decode cells = .ok i) :
    i.width ≤ cells.length ∧ ∀ q ∈ i.params, q.2.lit ∈ cells := by
  obtain ⟨w, lits, h, rfl, -, hp⟩ := decode_ok hd
  have hk := (decodeParams_ok hp).2
  constructor
  · by_contra hlt
    simp only [Instr.width, List.length_cons] at hlt
    obtain ⟨j, hj, hpj⟩ := hk (i.params.length - 1) (by omega)
    have := (paramAt_ok hpj).1
    omega
  · intro q hq
    obtain ⟨k, hkl, rfl⟩ := List.getElem_of_mem hq
    obtain ⟨j, -, hpj⟩ := hk k hkl
    exact List.mem_cons_of_mem _ (List.mem_of_getElem? (paramAt_ok hpj).2)

end Sys2Proof
end

