-- ==== Sys2Proof/Laws/State.lean ====
section
/-!
SUPPORT. One lemma per field for each update of the state and of memory, all true by definition, so that
no later proof unfolds a record update.
-/

namespace Sys2Proof.Machine

@[simp] theorem Memory.setLen_len (m : Memory) (n : Nat) : (m.setLen n).len = n := rfl

@[simp] theorem Memory.setLen_cells (m : Memory) (n : Nat) : (m.setLen n).cells = m.cells := rfl

@[simp] theorem Memory.set_len (m : Memory) (a : Nat) (v : Int) : (m.set a v).len = m.len := rfl

@[simp] theorem Memory.set_cells (m : Memory) (a : Nat) (v : Int) : (m.set a v).cells = cellsSet m.cells a v := rfl

@[simp] theorem raiseError_mem (s : State) (t : Trap) : (raiseError s t).mem = s.mem := rfl

@[simp] theorem raiseError_pc (s : State) (t : Trap) : (raiseError s t).pc = s.pc := rfl

@[simp] theorem raiseError_rb (s : State) (t : Trap) : (raiseError s t).rb = s.rb := rfl

@[simp] theorem raiseError_inQ (s : State) (t : Trap) : (raiseError s t).inQ = s.inQ := rfl

@[simp] theorem raiseError_outQ (s : State) (t : Trap) : (raiseError s t).outQ = s.outQ := rfl

@[simp] theorem raiseError_fsm (s : State) (t : Trap) : (raiseError s t).fsm = .errored := rfl

@[simp] theorem raiseError_err (s : State) (t : Trap) : (raiseError s t).err = some (errRecord s t) := rfl

@[simp] theorem raiseError_image0 (s : State) (t : Trap) : (raiseError s t).image0 = s.image0 := rfl

@[simp] theorem block_mem (s : State) : (block s).mem = s.mem := rfl

@[simp] theorem block_pc (s : State) : (block s).pc = s.pc := rfl

@[simp] theorem block_rb (s : State) : (block s).rb = s.rb := rfl

@[simp] theorem block_inQ (s : State) : (block s).inQ = s.inQ := rfl

@[simp] theorem block_outQ (s : State) : (block s).outQ = s.outQ := rfl

@[simp] theorem block_fsm (s : State) : (block s).fsm = .blocked := rfl

@[simp] theorem block_err (s : State) : (block s).err = s.err := rfl

@[simp] theorem block_image0 (s : State) : (block s).image0 = s.image0 := rfl

@[simp] theorem haltState_mem (s : State) : (haltState s).mem = s.mem := rfl

@[simp] theorem haltState_pc (s : State) : (haltState s).pc = s.pc := rfl

@[simp] theorem haltState_rb (s : State) : (haltState s).rb = s.rb := rfl

@[simp] theorem haltState_inQ (s : State) : (haltState s).inQ = s.inQ := rfl

@[simp] theorem haltState_outQ (s : State) : (haltState s).outQ = s.outQ := rfl

@[simp] theorem haltState_fsm (s : State) : (haltState s).fsm = .halted := rfl

@[simp] theorem haltState_err (s : State) : (haltState s).err = s.err := rfl

@[simp] theorem haltState_image0 (s : State) : (haltState s).image0 = s.image0 := rfl

@[simp] theorem commit_mem (s : State) (p : Pending) : (commit s p).mem = (s.mem.setLen p.len).applyWrite p.write := rfl

@[simp] theorem commit_pc (s : State) (p : Pending) : (commit s p).pc = p.pc := rfl

@[simp] theorem commit_rb (s : State) (p : Pending) : (commit s p).rb = p.rb := rfl

@[simp] theorem commit_inQ (s : State) (p : Pending) : (commit s p).inQ = if p.pop then s.inQ.tail else s.inQ := rfl

@[simp] theorem commit_outQ (s : State) (p : Pending) : (commit s p).outQ = s.outQ ++ p.push.toList := rfl

@[simp] theorem commit_fsm (s : State) (p : Pending) : (commit s p).fsm = s.fsm := rfl

@[simp] theorem commit_err (s : State) (p : Pending) : (commit s p).err = s.err := rfl

@[simp] theorem commit_image0 (s : State) (p : Pending) : (commit s p).image0 = s.image0 := rfl

@[simp] theorem errRecord_kind (s : State) (t : Trap) : (errRecord s t).kind = t.kind := rfl

@[simp] theorem errRecord_errPc (s : State) (t : Trap) : (errRecord s t).errPc = s.pc := rfl

@[simp] theorem errRecord_errWord (s : State) (t : Trap) : (errRecord s t).errWord = fetch s.mem s.pc := rfl

@[simp] theorem errRecord_errParam (s : State) (t : Trap) : (errRecord s t).errParam = t.param := rfl

@[simp] theorem Pending.advance_len (s : State) (len width : Nat) : (Pending.advance s len width).len = len := rfl

@[simp] theorem Pending.advance_write (s : State) (len width : Nat) : (Pending.advance s len width).write = none := rfl

@[simp] theorem Pending.advance_pc (s : State) (len width : Nat) : (Pending.advance s len width).pc = s.pc + width := rfl

@[simp] theorem Pending.advance_rb (s : State) (len width : Nat) : (Pending.advance s len width).rb = s.rb := rfl

@[simp] theorem Pending.advance_pop (s : State) (len width : Nat) : (Pending.advance s len width).pop = false := rfl

@[simp] theorem Pending.advance_push (s : State) (len width : Nat) : (Pending.advance s len width).push = none := rfl

@[simp] theorem drained_mem (s : State) : (drained s).mem = s.mem := rfl

@[simp] theorem drained_pc (s : State) : (drained s).pc = s.pc := rfl

@[simp] theorem drained_rb (s : State) : (drained s).rb = s.rb := rfl

@[simp] theorem drained_inQ (s : State) : (drained s).inQ = s.inQ := rfl

@[simp] theorem drained_outQ (s : State) : (drained s).outQ = [] := rfl

@[simp] theorem drained_fsm (s : State) : (drained s).fsm = s.fsm := rfl

@[simp] theorem drained_err (s : State) : (drained s).err = s.err := rfl

@[simp] theorem drained_image0 (s : State) : (drained s).image0 = s.image0 := rfl

@[simp] theorem resetState_mem (c : Config) (s : State) : (resetState c s).mem = if c.resetRestoresMemory then s.image0.getD s.mem else s.mem := rfl

@[simp] theorem resetState_pc (c : Config) (s : State) : (resetState c s).pc = 0 := rfl

@[simp] theorem resetState_rb (c : Config) (s : State) : (resetState c s).rb = if c.resetClearsRb then 0 else s.rb := rfl

@[simp] theorem resetState_inQ (c : Config) (s : State) : (resetState c s).inQ = [] := rfl

@[simp] theorem resetState_outQ (c : Config) (s : State) : (resetState c s).outQ = [] := rfl

@[simp] theorem resetState_fsm (c : Config) (s : State) : (resetState c s).fsm = if c.resetClearsStatus then .ready else s.fsm := rfl

@[simp] theorem resetState_err (c : Config) (s : State) : (resetState c s).err = if c.resetClearsStatus then none else s.err := rfl

@[simp] theorem resetState_image0 (c : Config) (s : State) : (resetState c s).image0 = s.image0 := rfl

@[simp] theorem constructed_mem (c : Config) (p i : List Int) : (constructed c p i).mem = programMemory p := rfl

@[simp] theorem constructed_pc (c : Config) (p i : List Int) : (constructed c p i).pc = 0 := rfl

@[simp] theorem constructed_rb (c : Config) (p i : List Int) : (constructed c p i).rb = 0 := rfl

@[simp] theorem constructed_inQ (c : Config) (p i : List Int) : (constructed c p i).inQ = i := rfl

@[simp] theorem constructed_outQ (c : Config) (p i : List Int) : (constructed c p i).outQ = [] := rfl

@[simp] theorem constructed_fsm (c : Config) (p i : List Int) : (constructed c p i).fsm = .ready := rfl

@[simp] theorem constructed_err (c : Config) (p i : List Int) : (constructed c p i).err = none := rfl

@[simp] theorem constructed_image0 (c : Config) (p i : List Int) : (constructed c p i).image0 = if c.resetRestoresMemory then some (programMemory p) else none := rfl

@[simp] theorem programMemory_len (p : List Int) : (programMemory p).len = max p.length Config.memMin := rfl

@[simp] theorem programMemory_cells (p : List Int) : (programMemory p).cells = cellsOfList 0 p := rfl

@[simp] theorem State.reset_mem  : (State.reset).mem = { cells := [], len := Config.memMin } := rfl

@[simp] theorem State.reset_pc  : (State.reset).pc = 0 := rfl

@[simp] theorem State.reset_rb  : (State.reset).rb = 0 := rfl

@[simp] theorem State.reset_inQ  : (State.reset).inQ = [] := rfl

@[simp] theorem State.reset_outQ  : (State.reset).outQ = [] := rfl

@[simp] theorem State.reset_fsm  : (State.reset).fsm = .ready := rfl

@[simp] theorem State.reset_err  : (State.reset).err = none := rfl

@[simp] theorem State.reset_image0  : (State.reset).image0 = none := rfl

@[simp] theorem placeFetchWord_mem (s : State) (w : Nat) : (placeFetchWord s w).mem = s.mem.place s.pc.toNat (cellsOfBits w maxWidth) := rfl

@[simp] theorem placeFetchWord_pc (s : State) (w : Nat) : (placeFetchWord s w).pc = max s.pc 0 := rfl

@[simp] theorem placeFetchWord_rb (s : State) (w : Nat) : (placeFetchWord s w).rb = s.rb := rfl

@[simp] theorem placeFetchWord_inQ (s : State) (w : Nat) : (placeFetchWord s w).inQ = s.inQ := rfl

@[simp] theorem placeFetchWord_outQ (s : State) (w : Nat) : (placeFetchWord s w).outQ = s.outQ := rfl

@[simp] theorem placeFetchWord_fsm (s : State) (w : Nat) : (placeFetchWord s w).fsm = .running := rfl

@[simp] theorem placeFetchWord_err (s : State) (w : Nat) : (placeFetchWord s w).err = s.err := rfl

@[simp] theorem placeFetchWord_image0 (s : State) (w : Nat) : (placeFetchWord s w).image0 = s.image0 := rfl

@[simp] theorem Memory.applyWrite_none (m : Memory) : m.applyWrite none = m := rfl

@[simp] theorem Memory.applyWrite_some (m : Memory) (a : Nat) (v : Int) :
    m.applyWrite (some (a, v)) = m.set a v := rfl

@[simp] theorem Memory.applyWrite_len (m : Memory) (w : Option (Nat × Int)) :
    (m.applyWrite w).len = m.len := by
  cases w <;> rfl

@[simp] theorem Memory.setLen_get (m : Memory) (n a : Nat) : (m.setLen n).get a = m.get a := rfl

@[simp] theorem conclude_done (s : State) (p : Pending) : conclude s (.done p) = .next (commit s p) := rfl

@[simp] theorem conclude_raise (s : State) (t : Trap) :
    conclude s (.raise t) = .next (raiseError s t) := rfl

@[simp] theorem conclude_block (s : State) : conclude s .block = .next (block s) := rfl

/-- What `conclude` can answer: always a next state, one per way the body ends. -/
theorem conclude_cases {s t : State} {r : Result} (h : conclude s r = .next t) :
    (∃ p, r = .done p ∧ t = commit s p) ∨ (∃ e, r = .raise e ∧ t = raiseError s e) ∨
      (r = .block ∧ t = block s) := by
  cases r with
  | done p => exact .inl ⟨p, rfl, by simpa using h.symm⟩
  | raise e => exact .inr (.inl ⟨e, rfl, by simpa using h.symm⟩)
  | block => exact .inr (.inr ⟨rfl, by simpa using h.symm⟩)

end Sys2Proof.Machine
end

