-- ==== Sys2Proof/Laws/Operands.lean ====
section
/-!
SUPPORT. What the resolver answers (R78, R79), in the terms of Safety.lean: for a parameter without an
error, its value or cell and the grown length; else its error.
-/

namespace Sys2Proof.Machine

theorem addressOf_eq_none {c : Config} {s : State} {p : Param} (h : addressOf c s p = none) :
    p.mode = .immediate ∨ (∃ e, p.mode = .illegal e) ∨
      (p.mode = .relative ∧ relativeAddress c s p.lit = none) := by
  unfold addressOf at h
  split at h <;> simp_all

theorem checkDataAddress_inRange {c : Config} {s : State} {a : Int} {pend : Nat}
    (h : inRange c s a = true) (hp : s.mem.len ≤ pend) :
    checkDataAddress c s.mem pend a = some (max pend (a.toNat + 1)) := by
  simp only [inRange, Bool.and_eq_true, Bool.or_eq_true, decide_eq_true_eq] at h
  obtain ⟨h0, h⟩ := h
  have hneg : ¬ a < 0 := not_lt.2 h0
  unfold checkDataAddress
  rw [if_neg hneg]
  by_cases hl : a < (s.mem.len : Int)
  · rw [if_pos hl]; congr 1; omega
  · have hg := h.resolve_left hl
    have : ¬ (c.memPolicy = .strict ∨ (c.addrLimit : Int) ≤ a) := by
      rintro (h1 | h1)
      · rw [hg.1] at h1; cases h1
      · exact absurd hg.2 (not_lt.2 h1)
    rw [if_neg hl, if_neg this]

theorem checkDataAddress_outOfRange {c : Config} {s : State} {a : Int} {pend : Nat}
    (h : inRange c s a = false) : checkDataAddress c s.mem pend a = none := by
  simp only [inRange, Bool.and_eq_false_iff, Bool.or_eq_false_iff, decide_eq_false_iff_not] at h
  unfold checkDataAddress
  split
  · rfl
  · rename_i h0
    split
    · rename_i h1
      rcases h with h | h
      · exact absurd (not_lt.1 h0) h
      · exact absurd h1 h.1
    · rcases h with h | h
      · exact absurd (not_lt.1 h0) h
      · rw [if_pos]
        rcases h.2 with h2 | h2
        · left
          cases hm : c.memPolicy with
          | grow => exact absurd hm h2
          | strict => rfl
        · exact .inr (not_lt.1 h2)

theorem memRead_inRange {c : Config} {s : State} {a : Int} {pend : Nat} (k : Fin 3)
    (h : inRange c s a = true) (hp : s.mem.len ≤ pend) :
    memRead c s.mem pend k a =
      .ok (if a < (s.mem.len : Int) then s.mem.get a.toNat else 0, max pend (a.toNat + 1)) := by
  simp only [memRead, checkDataAddress_inRange h hp]

theorem memRead_outOfRange {c : Config} {s : State} {a : Int} {pend : Nat} (k : Fin 3)
    (h : inRange c s a = false) :
    memRead c s.mem pend k a = .error { kind := .addressOutOfRange, param := some k } := by
  simp only [memRead, checkDataAddress_outOfRange h]

/-- A read parameter raises its error, whatever was resolved before it. -/
theorem resolveRead_error {c : Config} {s : State} {k : Fin 3} {p : Param} {t : Trap} (pend : Nat)
    (h : paramError c s .read k p = some t) : resolveRead c s pend k p = .error t := by
  obtain ⟨m, lit⟩ := p
  unfold paramError at h
  cases m with
  | positional =>
    simp only [Mode.legalFor, addressOf] at h
    cases hr : inRange c s lit <;> simp [hr] at h
    simp [resolveRead, memRead_outOfRange k hr, h]
  | immediate => simp [Mode.legalFor] at h
  | relative =>
    simp only [Mode.legalFor, addressOf] at h
    cases ha : relativeAddress c s lit with
    | none => simp [ha] at h; simp [resolveRead, ha, h]
    | some a =>
      cases hr : inRange c s a <;> simp [ha, hr] at h
      simp [resolveRead, ha, memRead_outOfRange k hr, h]
  | illegal e => simp [Mode.legalFor] at h; simp [resolveRead, illegalMode, h]

/-- A read parameter without an error gives its value, and memory grows to reach its cell. -/
theorem resolveRead_ok {c : Config} {s : State} {k : Fin 3} {p : Param} {pend : Nat}
    (h : paramError c s .read k p = none) (hp : s.mem.len ≤ pend) :
    resolveRead c s pend k p = .ok (valueOf c s p, max pend (reachOf c s p)) := by
  obtain ⟨m, lit⟩ := p
  unfold paramError at h
  cases m with
  | positional =>
    simp only [Mode.legalFor, addressOf] at h
    cases hr : inRange c s lit <;> simp [hr] at h
    simp [resolveRead, memRead_inRange k hr hp, valueOf, reachOf, addressOf]
  | immediate => simp [resolveRead, valueOf, reachOf, addressOf]
  | relative =>
    simp only [Mode.legalFor, addressOf] at h
    cases ha : relativeAddress c s lit with
    | none => simp [ha] at h
    | some a =>
      cases hr : inRange c s a <;> simp [ha, hr] at h
      simp [resolveRead, ha, memRead_inRange k hr hp, valueOf, reachOf, addressOf]
  | illegal e => simp [Mode.legalFor] at h

/-- A write target raises its error, whatever was resolved before it. -/
theorem resolveWrite_error {c : Config} {s : State} {k : Fin 3} {p : Param} {t : Trap} (pend : Nat)
    (h : paramError c s .write k p = some t) : resolveWrite c s pend k p = .error t := by
  obtain ⟨m, lit⟩ := p
  unfold paramError at h
  cases m with
  | positional =>
    simp only [Mode.legalFor, addressOf] at h
    cases hr : inRange c s lit <;> simp [hr] at h
    simp [resolveWrite, checkTarget, checkDataAddress_outOfRange hr, h]
  | immediate => simp [Mode.legalFor] at h; simp [resolveWrite, illegalMode, h]
  | relative =>
    simp only [Mode.legalFor, addressOf] at h
    cases ha : relativeAddress c s lit with
    | none => simp [ha] at h; simp [resolveWrite, ha, h]
    | some a =>
      cases hr : inRange c s a <;> simp [ha, hr] at h
      simp [resolveWrite, ha, checkTarget, checkDataAddress_outOfRange hr, h]
  | illegal e => simp [Mode.legalFor] at h; simp [resolveWrite, illegalMode, h]

/-- A write target without an error gives its cell, and memory grows to reach it. -/
theorem resolveWrite_ok {c : Config} {s : State} {k : Fin 3} {p : Param} {pend : Nat}
    (h : paramError c s .write k p = none) (hp : s.mem.len ≤ pend) :
    resolveWrite c s pend k p = .ok (targetOf c s p, max pend (reachOf c s p)) := by
  obtain ⟨m, lit⟩ := p
  unfold paramError at h
  cases m with
  | positional =>
    simp only [Mode.legalFor, addressOf] at h
    cases hr : inRange c s lit <;> simp [hr] at h
    simp [resolveWrite, checkTarget, checkDataAddress_inRange hr hp, targetOf, reachOf, addressOf]
  | immediate => simp [Mode.legalFor] at h
  | relative =>
    simp only [Mode.legalFor, addressOf] at h
    cases ha : relativeAddress c s lit with
    | none => simp [ha] at h
    | some a =>
      cases hr : inRange c s a <;> simp [ha, hr] at h
      simp [resolveWrite, ha, checkTarget, checkDataAddress_inRange hr hp, targetOf, reachOf, addressOf]
  | illegal e => simp [Mode.legalFor] at h

/-- A write target without an error is a writable one. -/
theorem paramError_write_none {c : Config} {s : State} {k : Fin 3} {p : Param} :
    paramError c s .write k p = none ↔ writable c s p = true := by
  obtain ⟨m, lit⟩ := p
  cases m <;> simp [paramError, writable, addressOf, Mode.legalFor]
  cases relativeAddress c s lit <;> simp

/-- A read parameter without an error is a readable one. -/
theorem paramError_read_none {c : Config} {s : State} {k : Fin 3} {p : Param} :
    paramError c s .read k p = none ↔ readable c s p = true := by
  obtain ⟨m, lit⟩ := p
  cases m <;> simp [paramError, readable, writable, addressOf, Mode.legalFor]
  cases relativeAddress c s lit <;> simp

/-- A writable parameter names a cell in range. -/
theorem writable_address {c : Config} {s : State} {p : Param} (h : writable c s p = true) :
    ∃ a, addressOf c s p = some a ∧ inRange c s a = true := by
  unfold writable at h
  split at h
  · cases h
  · exact ⟨_, by assumption, h⟩

/-- The target of a writable parameter lies below the length the parameter asks for. -/
theorem targetOf_lt_reachOf {c : Config} {s : State} {p : Param} (h : writable c s p = true) :
    targetOf c s p < reachOf c s p := by
  obtain ⟨a, ha, -⟩ := writable_address h
  simp [targetOf, reachOf, ha]

/-- A readable or writable parameter asks for no more than `memLen`, or under `grow` `ADDR_LIMIT`. -/
theorem reachOf_le {c : Config} {s : State} {p : Param} (h : readable c s p = true) :
    reachOf c s p ≤ s.mem.len ∨ (c.memPolicy = .grow ∧ reachOf c s p ≤ c.addrLimit) := by
  simp only [readable, Bool.or_eq_true, decide_eq_true_eq] at h
  rcases h with h | h
  · left; simp [reachOf, addressOf, h]
  · obtain ⟨a, ha, hr⟩ := writable_address h
    simp only [inRange, Bool.and_eq_true, Bool.or_eq_true, decide_eq_true_eq] at hr
    simp only [reachOf, ha]
    rcases hr with ⟨h0, h1 | ⟨hg, h1⟩⟩
    · left; omega
    · right; exact ⟨hg, by omega⟩

theorem writable_readable {c : Config} {s : State} {p : Param} (h : writable c s p = true) :
    readable c s p = true := by
  simp [readable, h]

end Sys2Proof.Machine
end

