-- ==== Sys2Proof/Laws/Exec.lean ====
section
/-!
SUPPORT. What an instruction does, said once for each shape and then for all instructions: if a
parameter has an error, the first one is raised; else the body runs on the parameters' values.
-/

namespace Sys2Proof.Machine

/-- The body of an F3RRW instruction on its operands' values. -/
def storeBody (c : Config) (s : State) (f : Int → Int → Option Int) (a b d : Param) : Result :=
  match f (valueOf c s a) (valueOf c s b) with
  | none => .raise { kind := .arithmeticOverflow, param := none }
  | some r =>
    .done { Pending.advance s (lenAfter c s [a, b, d]) 4 with write := some (targetOf c s d, r) }

/-- The body of a jump on its operands' values. -/
def jumpBody (c : Config) (s : State) (taken : Int → Bool) (a b : Param) : Result :=
  .done { Pending.advance s (lenAfter c s [a, b]) 3 with
    pc := if taken (valueOf c s a) then valueOf c s b else s.pc + (3 : Nat) }

/-- The body of an instruction other than HLT on its parameters' values and cells. -/
def bodyOf (c : Config) (s : State) : Instr → Result
  | .add a b d => storeBody c s (fun x y => chk c (x + y)) a b d
  | .mul a b d => storeBody c s (fun x y => chk c (x * y)) a b d
  | .inp a =>
    match s.inQ with
    | [] => .block
    | v :: _ =>
      .done { Pending.advance s (lenAfter c s [a]) 2 with write := some (targetOf c s a, v), pop := true }
  | .out a => .done { Pending.advance s (lenAfter c s [a]) 2 with push := some (valueOf c s a) }
  | .jt a b => jumpBody c s condTrue a b
  | .jf a b => jumpBody c s condFalse a b
  | .lt a b d => storeBody c s (fun x y => some (truthWord (decide (x < y)))) a b d
  | .eq a b d => storeBody c s (fun x y => some (truthWord (decide (x = y)))) a b d
  | .arb a =>
    match chk c (s.rb + valueOf c s a) with
    | none => .raise { kind := .arithmeticOverflow, param := none }
    | some r => .done { Pending.advance s (lenAfter c s [a]) 2 with rb := r }
  | .hlt => .block

theorem storeResult_eq (c : Config) (s : State) (f : Int → Int → Option Int) (a b d : Param) :
    storeResult c s f a b d =
      match firstErrorFrom c s 0 [(.read, a), (.read, b), (.write, d)] with
      | some t => .raise t
      | none => storeBody c s f a b d := by
  simp only [firstErrorFrom, Fin.reduceOfNat, Nat.reduceAdd, storeResult, resolveTwo]
  cases ha : paramError c s .read 0 a with
  | some t => simp [resolveRead_error _ ha]
  | none =>
    simp only [resolveRead_ok ha le_rfl]
    cases hb : paramError c s .read 1 b with
    | some t => simp [resolveRead_error _ hb]
    | none =>
      simp only [resolveRead_ok hb (le_max_left _ _)]
      cases hd : paramError c s .write 2 d with
      | some t => simp [resolveWrite_error _ hd]
      | none =>
        simp only [resolveWrite_ok hd (le_trans (le_max_left _ _) (le_max_left _ _)), storeBody]
        rfl

theorem jumpWhen_eq (c : Config) (s : State) (taken : Int → Bool) (a b : Param) :
    jumpWhen c s taken a b =
      match firstErrorFrom c s 0 [(.read, a), (.read, b)] with
      | some t => .raise t
      | none => jumpBody c s taken a b := by
  simp only [firstErrorFrom, Fin.reduceOfNat, Nat.reduceAdd, jumpWhen, resolveTwo]
  cases ha : paramError c s .read 0 a with
  | some t => simp [resolveRead_error _ ha]
  | none =>
    simp only [resolveRead_ok ha le_rfl]
    cases hb : paramError c s .read 1 b with
    | some t => simp [resolveRead_error _ hb]
    | none =>
      simp only [resolveRead_ok hb (le_max_left _ _), jumpBody]
      split <;> rfl

theorem inputResult_eq (c : Config) (s : State) (a : Param) :
    inputResult c s a =
      match firstErrorFrom c s 0 [(.write, a)] with
      | some t => .raise t
      | none => bodyOf c s (.inp a) := by
  simp only [firstErrorFrom, Fin.reduceOfNat, inputResult]
  cases ha : paramError c s .write 0 a with
  | some t => simp [resolveWrite_error _ ha]
  | none =>
    simp only [resolveWrite_ok ha le_rfl, bodyOf]
    rfl

theorem outputResult_eq (c : Config) (s : State) (a : Param) :
    outputResult c s a =
      match firstErrorFrom c s 0 [(.read, a)] with
      | some t => .raise t
      | none => bodyOf c s (.out a) := by
  simp only [firstErrorFrom, Fin.reduceOfNat, outputResult]
  cases ha : paramError c s .read 0 a with
  | some t => simp [resolveRead_error _ ha]
  | none =>
    simp only [resolveRead_ok ha le_rfl, bodyOf]
    rfl

theorem adjustBaseResult_eq (c : Config) (s : State) (a : Param) :
    adjustBaseResult c s a =
      match firstErrorFrom c s 0 [(.read, a)] with
      | some t => .raise t
      | none => bodyOf c s (.arb a) := by
  simp only [firstErrorFrom, Fin.reduceOfNat, adjustBaseResult]
  cases ha : paramError c s .read 0 a with
  | some t => simp [resolveRead_error _ ha]
  | none =>
    simp only [resolveRead_ok ha le_rfl, bodyOf]
    rfl

/-- Every instruction but HLT: the first error of its parameters, or its body. -/
theorem execIn_eq (c : Config) (s : State) (i : Instr) (hi : i ≠ .hlt) :
    execIn c i s =
      conclude s (match firstError c s i with
        | some t => .raise t
        | none => bodyOf c s i) := by
  cases i with
  | add a b d => exact congrArg (conclude s) (storeResult_eq c s _ a b d)
  | mul a b d => exact congrArg (conclude s) (storeResult_eq c s _ a b d)
  | inp a => exact congrArg (conclude s) (inputResult_eq c s a)
  | out a => exact congrArg (conclude s) (outputResult_eq c s a)
  | jt a b => exact congrArg (conclude s) (jumpWhen_eq c s _ a b)
  | jf a b => exact congrArg (conclude s) (jumpWhen_eq c s _ a b)
  | lt a b d => exact congrArg (conclude s) (storeResult_eq c s _ a b d)
  | eq a b d => exact congrArg (conclude s) (storeResult_eq c s _ a b d)
  | arb a => exact congrArg (conclude s) (adjustBaseResult_eq c s a)
  | hlt => exact absurd rfl hi

@[simp] theorem execIn_hlt (c : Config) (s : State) : execIn c .hlt s = .next (haltState s) := rfl

theorem execIn_of_firstError {c : Config} {s : State} {i : Instr} {t : Trap}
    (h : firstError c s i = some t) : execIn c i s = .next (raiseError s t) := by
  have hi : i ≠ .hlt := by rintro rfl; cases h
  rw [execIn_eq c s i hi, h, conclude_raise]

theorem execIn_of_no_error {c : Config} {s : State} {i : Instr} (hi : i ≠ .hlt)
    (h : firstError c s i = none) : execIn c i s = conclude s (bodyOf c s i) := by
  rw [execIn_eq c s i hi, h]

/-- `exec` is the dispatcher at this spec's parameters. -/
theorem exec_eq_execIn (i : Instr) (s : State) : exec i s = execIn Config.spec i s := by
  cases i <;> rfl

/-- What an instruction can do: complete its body's effects, raise, block (only IN, on an empty queue), or
halt (only HLT). -/
theorem execIn_cases {c : Config} {i : Instr} {s t : State} (h : execIn c i s = .next t) :
    (∃ p, firstError c s i = none ∧ bodyOf c s i = .done p ∧ t = commit s p) ∨
    (∃ e, t = raiseError s e) ∨
    (∃ a, i = .inp a ∧ firstError c s i = none ∧ s.inQ = [] ∧ t = block s) ∨
    (i = .hlt ∧ t = haltState s) := by
  by_cases hi : i = .hlt
  · subst hi
    exact .inr (.inr (.inr ⟨rfl, by simpa using h.symm⟩))
  · cases he : firstError c s i with
    | some e =>
      rw [execIn_of_firstError he] at h
      exact .inr (.inl ⟨e, by simpa using h.symm⟩)
    | none =>
      rw [execIn_of_no_error hi he] at h
      obtain ⟨p, hp, rfl⟩ | ⟨e, -, rfl⟩ | ⟨hb, rfl⟩ := conclude_cases h
      · exact .inl ⟨p, rfl, hp, rfl⟩
      · exact .inr (.inl ⟨e, rfl⟩)
      · refine .inr (.inr (.inl ?_))
        cases i with
        | inp a =>
          refine ⟨a, rfl, rfl, ?_, rfl⟩
          cases hq : s.inQ with
          | nil => rfl
          | cons v q => simp [bodyOf, hq] at hb
        | hlt => exact absurd rfl hi
        | add a b d => simp only [bodyOf, storeBody] at hb; split at hb <;> cases hb
        | mul a b d => simp only [bodyOf, storeBody] at hb; split at hb <;> cases hb
        | lt a b d => simp only [bodyOf, storeBody] at hb; cases hb
        | eq a b d => simp only [bodyOf, storeBody] at hb; cases hb
        | arb a => simp only [bodyOf] at hb; split at hb <;> cases hb
        | out a => cases hb
        | jt a b => cases hb
        | jf a b => cases hb

/-- Every instruction answers a next state: nothing stops the machine (R209). -/
theorem execIn_next (c : Config) (i : Instr) (s : State) : ∃ t, execIn c i s = .next t := by
  by_cases hi : i = .hlt
  · subst hi; exact ⟨_, rfl⟩
  · rw [execIn_eq c s i hi]
    generalize (match firstError c s i with
      | some t => Result.raise t
      | none => bodyOf c s i) = r
    cases r <;> exact ⟨_, rfl⟩

end Sys2Proof.Machine
end

