-- ==== Sys2Proof/Laws/Memory.lean ====
section
/-!
SUPPORT. The laws of memory: a read after a write, that every operation keeps the canonical form, and
what a program's memory holds.
-/

namespace Sys2Proof.Machine

/-! ## Lists of cells -/

theorem cellsWf_cons {len lo a : Nat} {v : Int} {rest : List (Nat × Int)} :
    cellsWf len lo ((a, v) :: rest) = true ↔
      lo ≤ a ∧ a < len ∧ v ≠ 0 ∧ cellsWf len (a + 1) rest = true := by
  simp [cellsWf, and_assoc]

theorem cellsWf_weaken {len len' lo lo' : Nat} {cells : List (Nat × Int)} (hl : len ≤ len')
    (hlo : lo' ≤ lo) (h : cellsWf len lo cells = true) : cellsWf len' lo' cells = true := by
  induction cells generalizing lo lo' with
  | nil => rfl
  | cons p rest ih =>
    obtain ⟨a, v⟩ := p
    rw [cellsWf_cons] at h ⊢
    exact ⟨by omega, by omega, h.2.2.1, ih le_rfl h.2.2.2⟩

theorem cellsGet_below {len lo a : Nat} {cells : List (Nat × Int)}
    (h : cellsWf len lo cells = true) (ha : a < lo) : cellsGet cells a = 0 := by
  induction cells generalizing lo with
  | nil => rfl
  | cons p rest ih =>
    obtain ⟨b, v⟩ := p
    rw [cellsWf_cons] at h
    rw [cellsGet, if_neg (by omega)]
    exact ih h.2.2.2 (by omega)

theorem cellsGet_above {len lo a : Nat} {cells : List (Nat × Int)}
    (h : cellsWf len lo cells = true) (ha : len ≤ a) : cellsGet cells a = 0 := by
  induction cells generalizing lo with
  | nil => rfl
  | cons p rest ih =>
    obtain ⟨b, v⟩ := p
    rw [cellsWf_cons] at h
    rw [cellsGet, if_neg (by omega)]
    exact ih h.2.2.2

theorem cellsGet_set_other (cells : List (Nat × Int)) {a b : Nat} (v : Int) (h : b ≠ a) :
    cellsGet (cellsSet cells a v) b = cellsGet cells b := by
  induction cells with
  | nil => by_cases hv : v = 0 <;> simp [cellsSet, cellsGet, hv, h]
  | cons p rest ih =>
    obtain ⟨x, w⟩ := p
    unfold cellsSet
    split
    · by_cases hv : v = 0 <;> simp [cellsGet, hv, h]
    · split
      · rename_i hx
        subst hx
        by_cases hv : v = 0 <;> simp [cellsGet, hv, h]
      · simp [cellsGet, ih]

theorem cellsGet_set_same {len lo : Nat} {cells : List (Nat × Int)} {a : Nat} (v : Int)
    (h : cellsWf len lo cells = true) : cellsGet (cellsSet cells a v) a = v := by
  induction cells generalizing lo with
  | nil => by_cases hv : v = 0 <;> simp [cellsSet, cellsGet, hv]
  | cons p rest ih =>
    obtain ⟨x, w⟩ := p
    rw [cellsWf_cons] at h
    unfold cellsSet
    split
    · rename_i hx
      by_cases hv : v = 0
      · simp [cellsGet, hv, Nat.ne_of_lt hx, cellsGet_below h.2.2.2 (a := a) (by omega)]
      · simp [cellsGet, hv]
    · split
      · rename_i hx
        by_cases hv : v = 0
        · simp [hv, cellsGet_below h.2.2.2 (a := a) (by omega)]
        · simp [cellsGet, hv]
      · rename_i hx
        simp [cellsGet, hx, ih h.2.2.2]

theorem cellsSet_wf {len lo : Nat} {cells : List (Nat × Int)} {a : Nat} (v : Int)
    (h : cellsWf len lo cells = true) (hlo : lo ≤ a) (ha : a < len) :
    cellsWf len lo (cellsSet cells a v) = true := by
  induction cells generalizing lo with
  | nil => by_cases hv : v = 0 <;> simp [cellsSet, cellsWf, hv, hlo, ha]
  | cons p rest ih =>
    obtain ⟨x, w⟩ := p
    have h' := cellsWf_cons.1 h
    unfold cellsSet
    split
    · rename_i hx
      by_cases hv : v = 0
      · simpa [hv] using h
      · simp only [hv, if_false]
        exact cellsWf_cons.2 ⟨hlo, ha, hv, cellsWf_cons.2 ⟨hx, h'.2⟩⟩
    · split
      · rename_i hx
        subst hx
        by_cases hv : v = 0
        · simp only [hv, if_true]
          exact cellsWf_weaken le_rfl (by omega) h'.2.2.2
        · simp only [hv, if_false]
          exact cellsWf_cons.2 ⟨hlo, ha, hv, h'.2.2.2⟩
      · exact cellsWf_cons.2 ⟨h'.1, h'.2.1, h'.2.2.1, ih h'.2.2.2 (by omega)⟩

theorem cellsOfList_wf (vs : List Int) (base len : Nat) (h : base + vs.length ≤ len) :
    cellsWf len base (cellsOfList base vs) = true := by
  induction vs generalizing base with
  | nil => rfl
  | cons v vs ih =>
    have h' : base + 1 + vs.length ≤ len := by simpa [Nat.add_assoc, Nat.add_comm 1] using h
    have hi := ih (base + 1) h'
    unfold cellsOfList
    split
    · exact cellsWf_weaken le_rfl (by omega) hi
    · rename_i hv
      exact cellsWf_cons.2 ⟨le_rfl, by omega, hv, hi⟩

/-- A program's cell holds the program's word, and 0 behind its end (R61). -/
theorem cellsGet_ofList (vs : List Int) (base k : Nat) :
    cellsGet (cellsOfList base vs) (base + k) = vs.getD k 0 := by
  induction vs generalizing base k with
  | nil => simp [cellsOfList, cellsGet]
  | cons v vs ih =>
    cases k with
    | zero =>
      unfold cellsOfList
      split
      · rename_i hv
        subst hv
        have hw := cellsOfList_wf vs (base + 1) (base + 1 + vs.length) le_rfl
        simpa using cellsGet_below hw (a := base) (by omega)
      · simp [cellsGet]
    | succ k =>
      have hi : cellsGet (cellsOfList (base + 1) vs) (base + (k + 1)) = vs.getD k 0 := by
        rw [← ih (base + 1) k]; congr 1; omega
      unfold cellsOfList
      split
      · simpa using hi
      · simpa [cellsGet] using hi

/-! ## Memory -/

theorem Memory.set_get_same {m : Memory} (h : m.wf = true) (a : Nat) (v : Int) :
    (m.set a v).get a = v := cellsGet_set_same v h

theorem Memory.set_get_other (m : Memory) {a b : Nat} (v : Int) (h : b ≠ a) :
    (m.set a v).get b = m.get b := cellsGet_set_other m.cells v h

theorem Memory.get_above {m : Memory} (h : m.wf = true) {a : Nat} (ha : m.len ≤ a) : m.get a = 0 :=
  cellsGet_above h ha

theorem Memory.set_wf {m : Memory} (h : m.wf = true) {a : Nat} (v : Int) (ha : a < m.len) :
    (m.set a v).wf = true := cellsSet_wf v h (Nat.zero_le a) ha

theorem Memory.setLen_wf {m : Memory} (h : m.wf = true) {n : Nat} (hn : m.len ≤ n) :
    (m.setLen n).wf = true := cellsWf_weaken hn le_rfl h

theorem programMemory_wf (program : List Int) : (programMemory program).wf = true :=
  cellsOfList_wf program 0 _ (by simp)

theorem programMemory_get (program : List Int) (a : Nat) :
    (programMemory program).get a = program.getD a 0 := by
  simpa [programMemory, Memory.get] using cellsGet_ofList program 0 a

/-- A stored word is the word the next fetch of its cell reads (R66). -/
theorem fetch_set {m : Memory} (h : m.wf = true) {a : Nat} (v : Int) (ha : a < m.len) :
    fetch (m.set a v) (a : Int) = some v := by
  have h1 : ¬ ((a : Int) < 0 ∨ (m.len : Int) ≤ (a : Int)) := by omega
  rw [fetch, Memory.set_len, if_neg h1, Int.toNat_natCast, Memory.set_get_same h]

theorem fetch_eq_some {m : Memory} {a v : Int} (h : fetch m a = some v) :
    0 ≤ a ∧ a < m.len ∧ v = m.get a.toNat := by
  unfold fetch at h
  split at h
  · cases h
  · rename_i hn
    rw [not_or, not_lt, not_le] at hn
    exact ⟨hn.1, hn.2, (Option.some.inj h).symm⟩

/-! ## Placing words -/

theorem Memory.place_len_le (ws : List Int) (m : Memory) (a : Nat) : m.len ≤ (m.place a ws).len := by
  induction ws generalizing m a with
  | nil => exact le_rfl
  | cons w ws ih =>
    refine le_trans ?_ (ih _ _)
    simp

theorem Memory.place_wf (ws : List Int) {m : Memory} (a : Nat) (h : m.wf = true) :
    (m.place a ws).wf = true := by
  induction ws generalizing m a with
  | nil => exact h
  | cons w ws ih =>
    refine ih _ (Memory.set_wf (Memory.setLen_wf h (by simp)) w ?_)
    simp

theorem Memory.place_get_below (ws : List Int) (m : Memory) {a b : Nat} (h : b < a) :
    (m.place a ws).get b = m.get b := by
  induction ws generalizing m a with
  | nil => rfl
  | cons w ws ih =>
    rw [Memory.place, ih _ (by omega), Memory.set_get_other _ _ (by omega), Memory.setLen_get]

/-- The placed words are what memory then holds, and memory is long enough for them. -/
theorem Memory.place_get (ws : List Int) {m : Memory} (a k : Nat) (h : m.wf = true)
    (hk : k < ws.length) :
    (m.place a ws).get (a + k) = ws[k] ∧ a + k < (m.place a ws).len := by
  induction ws generalizing m a k with
  | nil => simp at hk
  | cons w ws ih =>
    have hw : ((m.setLen (max m.len (a + 1))).set a w).wf = true :=
      Memory.set_wf (Memory.setLen_wf h (by simp)) w (by simp)
    cases k with
    | zero =>
      refine ⟨?_, ?_⟩
      · have hl : (m.setLen (max m.len (a + 1))).wf = true := Memory.setLen_wf h (by simp)
        rw [Memory.place, Memory.place_get_below _ _ (by omega)]
        exact Memory.set_get_same hl a w
      · refine lt_of_lt_of_le ?_ (Memory.place_len_le ws _ (a + 1))
        simp
    | succ k =>
      have := ih (a + 1) k hw (by simpa using hk)
      rw [Memory.place]
      simpa [Nat.add_assoc, Nat.add_comm 1] using this

end Sys2Proof.Machine
end

