-- ==== Sys2Proof/Laws/PerInstr.lean ====
section
/-!
SUPPORT. Statements about every instruction, one lemma per constructor.

`Header`: the canonical opcode word of an instruction decodes to its operation and its modes (R83, R84).
-/

namespace Sys2Proof.Laws.Header

/-- The canonical opcode word decodes to the instruction's operation and the modes of its parameters. -/
def Statement (i : Instr) : Prop :=
  decodeWord (opcodeWord i : Int) = some { op := i.opcode, modes := i.params.map fun q => q.2.mode }

/-- The opcode word from its parts: the low two digits are the code, the next ones the modes. -/
theorem of_digits (op : Opcode) (ms : List Mode) (hl : op.format.length = ms.length)
    (hd : ∀ k (hk : k < ms.length), modeDigit (op.code + 100 * modesNumber ms) k = (ms[k]'hk).digit) :
    decodeWord ((op.code + 100 * modesNumber ms : Nat) : Int) = some { op := op, modes := ms } := by
  have hneg : ¬ (((op.code + 100 * modesNumber ms : Nat) : Int) < 0) := by omega
  have hop : (op.code + 100 * modesNumber ms) % 100 = op.code := by
    have := op.code_lt; omega
  have hm : (List.range op.format.length).map
      (fun k => Mode.ofDigit (modeDigit (op.code + 100 * modesNumber ms) k)) = ms := by
    refine List.ext_getElem (by simpa using hl) fun k h1 h2 => ?_
    simp [hd k h2]
  rw [decodeWord, if_neg hneg, Int.toNat_natCast, hop, Opcode.ofCode_code]
  simp only [hm]

theorem digit_one {op m0 : Nat} (h : op < 100) (h0 : m0 < 10) : modeDigit (op + 100 * (m0 + 10 * 0)) 0 = m0 := by
  simp only [modeDigit, decimalDigit]; norm_num; omega

theorem digits_two {op m0 m1 : Nat} (h : op < 100) (h0 : m0 < 10) (h1 : m1 < 10) :
    modeDigit (op + 100 * (m0 + 10 * (m1 + 10 * 0))) 0 = m0 ∧
      modeDigit (op + 100 * (m0 + 10 * (m1 + 10 * 0))) 1 = m1 := by
  simp only [modeDigit, decimalDigit]; norm_num; omega

theorem digits_three {op m0 m1 m2 : Nat} (h : op < 100) (h0 : m0 < 10) (h1 : m1 < 10) (h2 : m2 < 10) :
    modeDigit (op + 100 * (m0 + 10 * (m1 + 10 * (m2 + 10 * 0)))) 0 = m0 ∧
      modeDigit (op + 100 * (m0 + 10 * (m1 + 10 * (m2 + 10 * 0)))) 1 = m1 ∧
        modeDigit (op + 100 * (m0 + 10 * (m1 + 10 * (m2 + 10 * 0)))) 2 = m2 := by
  simp only [modeDigit, decimalDigit]; norm_num; omega

theorem one (op : Opcode) (a : Mode) (hl : op.format.length = 1) :
    decodeWord ((op.code + 100 * modesNumber [a] : Nat) : Int) = some { op := op, modes := [a] } :=
  of_digits op [a] hl fun k hk =>
    match k, hk with
    | 0, _ => digit_one op.code_lt a.digit_lt

theorem two (op : Opcode) (a b : Mode) (hl : op.format.length = 2) :
    decodeWord ((op.code + 100 * modesNumber [a, b] : Nat) : Int) = some { op := op, modes := [a, b] } :=
  of_digits op [a, b] hl fun k hk =>
    match k, hk with
    | 0, _ => (digits_two op.code_lt a.digit_lt b.digit_lt).1
    | 1, _ => (digits_two op.code_lt a.digit_lt b.digit_lt).2

theorem three (op : Opcode) (a b c : Mode) (hl : op.format.length = 3) :
    decodeWord ((op.code + 100 * modesNumber [a, b, c] : Nat) : Int) =
      some { op := op, modes := [a, b, c] } :=
  of_digits op [a, b, c] hl fun k hk =>
    match k, hk with
    | 0, _ => (digits_three op.code_lt a.digit_lt b.digit_lt c.digit_lt).1
    | 1, _ => (digits_three op.code_lt a.digit_lt b.digit_lt c.digit_lt).2.1
    | 2, _ => (digits_three op.code_lt a.digit_lt b.digit_lt c.digit_lt).2.2

theorem add (a b c : Param) : Statement (.add a b c) := three .add a.mode b.mode c.mode rfl

theorem mul (a b c : Param) : Statement (.mul a b c) := three .mul a.mode b.mode c.mode rfl

theorem inp (a : Param) : Statement (.inp a) := one .inp a.mode rfl

theorem out (a : Param) : Statement (.out a) := one .out a.mode rfl

theorem jt (a b : Param) : Statement (.jt a b) := two .jt a.mode b.mode rfl

theorem jf (a b : Param) : Statement (.jf a b) := two .jf a.mode b.mode rfl

theorem lt (a b c : Param) : Statement (.lt a b c) := three .lt a.mode b.mode c.mode rfl

theorem eq (a b c : Param) : Statement (.eq a b c) := three .eq a.mode b.mode c.mode rfl

theorem arb (a : Param) : Statement (.arb a) := one .arb a.mode rfl

theorem hlt : Statement .hlt := by
  have : decodeWord ((99 : Nat) : Int) = some { op := .hlt, modes := [] } := by decide
  exact this

end Sys2Proof.Laws.Header
end

