-- ==== Sys2Proof/Laws/Step.lean ====
section
/-!
SUPPORT. What a step can do: the cells it fetches, and its inversion.
-/

namespace Sys2Proof.Machine

/-- The cells fetched from an existing address on begin with the cells that exist there. -/
theorem fetchWindow_eq (m : Memory) (k n : Nat) (a : Int) (h0 : 0 ≤ a) (hk : k ≤ n)
    (hl : a + k ≤ m.len) :
    ∃ rest, fetchWindow m a n = (List.range k).map (fun j => m.get (a.toNat + j)) ++ rest := by
  induction k generalizing a n with
  | zero => exact ⟨fetchWindow m a n, by simp⟩
  | succ k ih =>
    cases n with
    | zero => omega
    | succ n =>
      have hf : fetch m a = some (m.get a.toNat) := by
        rw [fetch, if_neg (by push_cast at hl; omega)]
      obtain ⟨rest, hr⟩ := ih n (a + 1) (by omega) (by omega) (by push_cast at hl ⊢; omega)
      refine ⟨rest, ?_⟩
      have hs : (a + 1).toNat = a.toNat + 1 := by omega
      simp only [fetchWindow, hf, hr, hs, List.range_succ_eq_map, List.map_cons, List.map_map,
        List.cons_append, Nat.add_zero]
      congr 2
      refine List.map_congr_left fun j _ => ?_
      simp [Nat.add_assoc, Nat.add_comm 1]

/-- The fetched cells are cells of memory, and they all exist. -/
theorem fetchWindow_cells (m : Memory) (n : Nat) (a : Int) :
    (∀ v ∈ fetchWindow m a n, ∃ b, v = m.get b) ∧
      (fetchWindow m a n ≠ [] → 0 ≤ a ∧ a + (fetchWindow m a n).length ≤ m.len) := by
  induction n generalizing a with
  | zero => simp [fetchWindow]
  | succ n ih =>
    unfold fetchWindow
    cases hf : fetch m a with
    | none => simp
    | some w =>
      obtain ⟨h0, hl, rfl⟩ := fetch_eq_some hf
      obtain ⟨h1, h2⟩ := ih (a + 1)
      refine ⟨?_, fun _ => ⟨h0, ?_⟩⟩
      · intro v hv
        rcases List.mem_cons.1 hv with rfl | hv
        · exact ⟨_, rfl⟩
        · exact h1 v hv
      · by_cases hn : fetchWindow m (a + 1) n = []
        · simp [hn]; omega
        · have := (h2 hn).2
          simp only [List.length_cons]; push_cast; omega

/-- A fetched instruction lies in memory whole, and its literals are cells of memory. -/
theorem fetchInstr_ok {s : State} {i : Instr} (h : fetchInstr s = .ok i) :
    0 ≤ s.pc ∧ s.pc + i.width ≤ s.mem.len ∧ ∀ q ∈ i.params, ∃ a, q.2.lit = s.mem.get a := by
  unfold fetchInstr at h
  split at h
  · cases h
  · rename_i hd
    cases h
    obtain ⟨hw, hq⟩ := decode_ok_cells hd
    obtain ⟨hc, hl⟩ := fetchWindow_cells s.mem maxWidth s.pc
    have hne : fetchWindow s.mem s.pc maxWidth ≠ [] := by
      intro hn
      rw [hn] at hw
      simp [Instr.width] at hw
    exact ⟨(hl hne).1, by have := (hl hne).2; omega, fun q hqm => hc _ (hq q hqm)⟩

/-- An instruction that lies in memory at `pc` is the one a step fetches. -/
theorem fetchInstr_of_cells {s : State} {i : Instr} (h0 : 0 ≤ s.pc) (hl : s.pc + i.width ≤ s.mem.len)
    (hd : decode ((List.range i.width).map fun j => s.mem.get (s.pc.toNat + j)) = .ok i) :
    fetchInstr s = .ok i := by
  have hw : i.width ≤ maxWidth := by cases i <;> simp [Instr.width, Instr.params, maxWidth]
  obtain ⟨rest, hr⟩ := fetchWindow_eq s.mem i.width maxWidth s.pc h0 hw hl
  unfold fetchInstr
  rw [hr, decode_append rest hd]

theorem stepIn_running {c : Config} {s : State} {i : Instr} (hr : s.fsm = .running)
    (hf : fetchInstr s = .ok i) : stepIn c s = execIn c i s := by
  simp only [stepIn, stepVia, hr, hf, if_true]

theorem stepIn_error {c : Config} {s : State} {t : Trap} (hr : s.fsm = .running)
    (hf : fetchInstr s = .error t) : stepIn c s = .next (raiseError s t) := by
  simp only [stepIn, stepVia, hr, hf, if_true]

theorem stepIn_not_running {c : Config} {s : State} (hr : s.fsm ≠ .running) :
    stepIn c s = .refused .noRunInProgress := by
  simp only [stepIn, stepVia, hr, if_false]

/-- `step` is the step at this spec's parameters. -/
theorem step_eq_stepIn (s : State) : step s = stepIn Config.spec s := by
  unfold step stepIn stepVia
  split
  · split
    · rfl
    · exact exec_eq_execIn _ _
  · rfl

/-- What a step can do: it runs only while running; it raises where no instruction could be fetched, and
else it is the fetched instruction. -/
theorem stepIn_cases {c : Config} {s t : State} (h : stepIn c s = .next t) :
    s.fsm = .running ∧
      ((∃ e, fetchInstr s = .error e ∧ t = raiseError s e) ∨
        ∃ i, fetchInstr s = .ok i ∧ execIn c i s = .next t) := by
  by_cases hr : s.fsm = .running
  · refine ⟨hr, ?_⟩
    cases hf : fetchInstr s with
    | error e =>
      rw [stepIn_error hr hf] at h
      exact .inl ⟨e, rfl, by simpa using h.symm⟩
    | ok i =>
      rw [stepIn_running hr hf] at h
      exact .inr ⟨i, rfl, h⟩
  · rw [stepIn_not_running hr] at h
    cases h

end Sys2Proof.Machine
end

