-- ==== Sys2Proof/Tests/Slice0.lean ====
section
/-!
SUPPORT. The model's own tests. Expected results are those of spec/95_test_vectors.md (named by vector) or
written out by hand from the rule a test names. Then, for every obligation with hypotheses, a state and
operands that meet them.
-/

namespace Sys2Proof.Tests

open Sys2Proof Sys2Proof.Machine

/-! ## Helpers -/

/-- A machine with `program` from cell 0 and `input` queued, in a run (R230, R108). -/
def machine (program input : List Int) : State :=
  { constructed Config.spec program input with fsm := .running }

/-- The same machine with the words `program` at the end of its 8192 cells and `pc` at the first of them. -/
def atEnd (program : List Int) : State :=
  { machine [] [] with
    mem := { cells := cellsOfList (8192 - program.length) program, len := 8192 }
    pc := 8192 - program.length }

/-- The next state of an outcome, if it is one. -/
def nextOf {σ : Type} (o : Host.Outcome σ Fault Refusal) : Option σ :=
  match o with
  | .next t => some t
  | .fault _ => none
  | .refused _ => none

theorem of_nextOf {σ : Type} {o : Host.Outcome σ Fault Refusal} {t : σ} (h : nextOf o = some t) :
    o = .next t := by
  cases o <;> simp_all [nextOf]

/-- What the first step of a program leaves. -/
def first (program input : List Int) : Option State := nextOf (step (machine program input))

/-- `pc`, `rb` and one cell after the first step. -/
def view (program input : List Int) (a : Nat) : Option (Int × Int × Int) :=
  (first program input).map fun t => (t.pc, t.rb, t.mem.get a)

/-- Both queues and the state machine after the first step. -/
def queues (program input : List Int) : Option (Fsm × List Int × List Int) :=
  (first program input).map fun t => (t.fsm, t.inQ, t.outQ)

/-- The error record after the first step. -/
def errorOf (program input : List Int) : Option ErrRec :=
  (first program input).bind fun t => t.err

/-- A configuration of 16-bit Words, wrapping, with strict memory that RESET restores (R7, R9, R11, R12). -/
def small : Config where
  wordBits := some 16
  memPolicy := .strict
  addrLimit := 8192
  overflowPolicy := .wrap
  resetRestoresMemory := true
  resetClearsRb := true
  resetClearsStatus := true

/-! ## Well-formedness: one ill-formed term for each check (R77, R81, R84) -/

theorem test_wf_accepts :
    (Instr.add ⟨.positional, 0⟩ ⟨.immediate, -1⟩ ⟨.relative, 5⟩).wellFormed Config.spec = true := by decide

theorem test_wf_rejects_illegal_mode :
    (Instr.out ⟨.illegal 0, 0⟩).wellFormed Config.spec = false := by decide

theorem test_wf_rejects_illegal_mode_of_a_target :
    (Instr.inp ⟨.illegal 6, 0⟩).wellFormed Config.spec = false := by decide

theorem test_wf_rejects_immediate_target :
    (Instr.inp ⟨.immediate, 0⟩).wellFormed Config.spec = false := by decide

theorem test_wf_rejects_literal_over_wmax :
    (Instr.arb ⟨.immediate, 9223372036854775808⟩).wellFormed Config.spec = false := by decide

theorem test_wf_rejects_literal_under_wmin :
    (Instr.jt ⟨.immediate, 1⟩ ⟨.immediate, -9223372036854775809⟩).wellFormed Config.spec = false := by decide

/-! ## Decoding: words written out from R71, R73, R77 -/

/-- R73, R88: the word 1 is ADD with three positional parameters. -/
theorem test_decode_add :
    decode [1, 0, 0, 0] = .ok (.add ⟨.positional, 0⟩ ⟨.positional, 0⟩ ⟨.positional, 0⟩) := by decide

/-- P3: `MUL [rb+0], [rb+1], [rb+0]` is 22202,0,1,0. -/
theorem test_decode_mul :
    decode [22202, 0, 1, 0] = .ok (.mul ⟨.relative, 0⟩ ⟨.relative, 1⟩ ⟨.relative, 0⟩) := by decide

/-- IO5: 203 is IN with a relative target. -/
theorem test_decode_inp : decode [203, -10] = .ok (.inp ⟨.relative, -10⟩) := by decide

/-- IO1: 104 is OUT with an immediate operand. -/
theorem test_decode_out : decode [104, -7] = .ok (.out ⟨.immediate, -7⟩) := by decide

/-- P1: `JT [10], #0` is 1005,10,0: the hundreds digit is the mode of the condition. -/
theorem test_decode_jt : decode [1005, 10, 0] = .ok (.jt ⟨.positional, 10⟩ ⟨.immediate, 0⟩) := by decide

/-- P2: `JF [20], #12` is 1006,20,12. -/
theorem test_decode_jf : decode [1006, 20, 12] = .ok (.jf ⟨.positional, 20⟩ ⟨.immediate, 12⟩) := by decide

/-- CV4: 21107,1,2,3 is LT of two immediates into a relative cell. -/
theorem test_decode_lt :
    decode [21107, 1, 2, 3] = .ok (.lt ⟨.immediate, 1⟩ ⟨.immediate, 2⟩ ⟨.relative, 3⟩) := by decide

/-- CV5: 11108 is EQ with an immediate target, which decodes (R83). -/
theorem test_decode_eq :
    decode [11108, 1, 1, 3] = .ok (.eq ⟨.immediate, 1⟩ ⟨.immediate, 1⟩ ⟨.immediate, 3⟩) := by decide

/-- RB3: 209 is ARB with a relative operand. -/
theorem test_decode_arb : decode [209, 2] = .ok (.arb ⟨.relative, 2⟩) := by decide

/-- R76: 99, 1099 and 299 are HLT. -/
theorem test_decode_hlt :
    decode [99] = .ok .hlt ∧ decode [1099, 5] = .ok .hlt ∧ decode [299] = .ok .hlt := by decide

/-- R76: 1004 and 20004 are OUT with a positional operand. -/
theorem test_decode_ignored_digits :
    decode [1004, 7] = .ok (.out ⟨.positional, 7⟩) ∧ decode [20004, 7] = .ok (.out ⟨.positional, 7⟩) := by
  decide

/-- DV3, DV5: a digit that is no mode, and an immediate target, decode (R83). -/
theorem test_decode_illegal_modes :
    decode [301, 0, 0, 0] = .ok (.add ⟨.illegal 0, 0⟩ ⟨.positional, 0⟩ ⟨.positional, 0⟩) ∧
      decode [90001, 0, 0, 0] = .ok (.add ⟨.positional, 0⟩ ⟨.positional, 0⟩ ⟨.illegal 6, 0⟩) ∧
      decode [103, 0] = .ok (.inp ⟨.immediate, 0⟩) := by
  decide

/-- DV6, DV7: no instruction. -/
theorem test_decode_rejects :
    decode [-1] = .error .invalidOpcode ∧ decode [-99] = .error .invalidOpcode ∧
      decode [0] = .error .invalidOpcode ∧ decode [10] = .error .invalidOpcode ∧
      decode [98] = .error .invalidOpcode ∧ decode [] = .error .noOpcodeCell ∧
      decode [2, 5] = .error (.missingParam 1) := by
  decide

/-- R84's own words: 21101 is `1 + 100·1 + 1000·1 + 10000·2`. -/
theorem test_encode_add :
    encode (.add ⟨.immediate, 5⟩ ⟨.immediate, 0⟩ ⟨.relative, 1⟩) = [21101, 5, 0, 1] := by decide

/-- A row's bits as the table numbers them (log 5): the cells 104 and -7. -/
theorem test_decodeTableWord :
    decodeTableWord 128 (104 + (2 ^ 64 - 7) * 2 ^ 64) = some (.out ⟨.immediate, -7⟩) := by decide

/-- R88's example, and P2's `JMP #0` with a label; R89's expansions. -/
theorem test_assemble :
    assemble [.instr .add [.pos (.num 0), .pos (.num 0), .pos (.num 0)]] = some [1, 0, 0, 0] ∧
      assemble [.label 7, .nop, .mov (.imm (.num 4)) (.rbMinus (.num 2)), .jmp (.imm (.label 7)), .halt,
        .word [.num 3]] = some [109, 0, 21101, 4, 0, -2, 1105, 1, 0, 99, 3] := by
  decide

theorem test_assemble_rejects :
    assemble [.jmp (.imm (.label 1))] = none ∧ assemble [.instr .out []] = none := by decide

/-! ## One step of each instruction -/

/-- SE1. -/
theorem test_add : view [1, 0, 0, 0, 99] [] 0 = some (4, 0, 2) := by decide

/-- AR5: the sum may land in one of the instruction's own cells. -/
theorem test_add_own_cell : view [1101, 5, 5, 3, 99] [] 3 = some (4, 0, 10) := by decide

/-- AR2: the sign of a product. -/
theorem test_mul : view [1102, -3, 4, 5, 99, 0] [] 5 = some (4, 0, -12) := by decide

/-- AR3: `WMIN × -1` overflows, and no parameter is recorded. -/
theorem test_mul_overflow :
    errorOf [1102, -9223372036854775808, -1, 5, 99, 0] [] =
      some ⟨.arithmeticOverflow, 0, some 1102, none⟩ := by decide

/-- IO7: the front of the queue is taken. -/
theorem test_inp :
    view [3, 5, 99, 0, 0, 0] [1, 2, 3] 5 = some (2, 0, 1) ∧
      queues [3, 5, 99, 0, 0, 0] [1, 2, 3] = some (.running, [2, 3], []) := by decide

/-- IO6: a blocked IN changes nothing, and memory does not grow. -/
theorem test_inp_blocks :
    (first [3, 9000, 99] []).map (fun t => (t.fsm, t.pc, t.mem.len)) = some (.blocked, 0, 8192) := by decide

/-- IO1. -/
theorem test_out : queues [104, -7, 99] [] = some (.running, [], [-7]) := by decide

/-- DV11: a read past the end gives 0 and grows memory. -/
theorem test_out_grows :
    (first [4, 9000, 99] []).map (fun t => (t.outQ, t.mem.len, t.pc)) = some ([0], 9001, 2) := by decide

/-- JP2: a negative condition is true. -/
theorem test_jt : view [1105, -1, 4, 42, 99] [] 0 = some (4, 0, 1105) := by decide

/-- JP1n. -/
theorem test_jt_not_taken : view [1105, 0, 4, 99, 42] [] 0 = some (3, 0, 1105) := by decide

/-- JP4: the jump itself completes with any target. -/
theorem test_jf : view [1106, 0, -1] [] 0 = some (-1, 0, 1106) := by decide

/-- JP3neg: a negative condition is not zero. -/
theorem test_jf_not_taken : view [1106, -1, 4, 99, 42] [] 0 = some (3, 0, 1106) := by decide

/-- CV1d: the comparison is signed. -/
theorem test_lt :
    view [1107, -9223372036854775808, 9223372036854775807, 5, 99, 7] [] 5 = some (4, 0, 1) := by decide

/-- CV1b: equal operands are not less. -/
theorem test_lt_equal : view [1107, 3, 3, 5, 99, 7] [] 5 = some (4, 0, 0) := by decide

/-- CV3: a cell equals itself, and is then overwritten. -/
theorem test_eq : view [8, 5, 5, 5, 99, 7] [] 5 = some (4, 0, 1) := by decide

/-- CV2b. -/
theorem test_eq_differs : view [1108, 5, 6, 5, 99, 7] [] 5 = some (4, 0, 0) := by decide

/-- RB3's second step: the operand is read with the old base. -/
theorem test_arb :
    (nextOf (step { machine [109, 1, 209, 2, 99] [] with pc := 2, rb := 1 })).map (fun t => (t.pc, t.rb)) =
      some (4, 3) := by decide

/-- RB2: the adjustment overflows. -/
theorem test_arb_overflow :
    (nextOf (step { machine [109, 1] [] with rb := 9223372036854775807 })).bind (fun t => t.err) =
      some ⟨.arithmeticOverflow, 0, some 109, none⟩ := by decide

/-- DV8: HLT leaves `pc`. -/
theorem test_hlt :
    (first [1099] []).map (fun t => (t.fsm, t.pc, t.err)) = some (.halted, 0, none) := by decide

/-! ## Errors -/

/-- SE7. -/
theorem test_invalid_opcode : errorOf [42] [] = some ⟨.invalidOpcode, 0, some 42, none⟩ := by decide

/-- DV3, DV4, DV5: the mode check, which comes before blocking. -/
theorem test_illegal_mode :
    errorOf [301, 0, 0, 0, 99] [] = some ⟨.illegalAddressingMode, 0, some 301, some 0⟩ ∧
      errorOf [11101, 1, 1, 1, 99] [] = some ⟨.illegalAddressingMode, 0, some 11101, some 2⟩ ∧
      errorOf [103, 0, 99] [] = some ⟨.illegalAddressingMode, 0, some 103, some 0⟩ := by decide

/-- DV9, DV12: a negative address, and the first address past the limit. -/
theorem test_address_out_of_range :
    errorOf [4, -1, 99] [] = some ⟨.addressOutOfRange, 0, some 4, some 0⟩ ∧
      errorOf [4, 4294967296, 99] [] = some ⟨.addressOutOfRange, 0, some 4, some 0⟩ := by decide

/-- DV13: a parameter cell past the end. -/
theorem test_overrun :
    (nextOf (step (atEnd [1]))).bind (fun t => t.err) =
      some ⟨.programCounterOverrun, 8191, some 1, some 0⟩ := by decide

/-- R80, R17 under `wrap`, at 16 bits: a base of -32768 and the literal -32760 name cell 8, since their sum is
8 modulo 65536. -/
theorem test_wrap_relative :
    (nextOf (stepIn small { machine [204, -32760, 0, 0, 0, 0, 0, 0, 77] [] with rb := -32768 })).map
      (fun t => (t.fsm, t.outQ)) = some (.running, [77]) := by
  decide

/-- AR1 under `wrap`, at 16 bits: `32767 + 1` is -32768. -/
theorem test_wrap :
    (nextOf (stepIn small (machine [1101, 32767, 1, 5] []))).map (fun t => t.mem.get 5) = some (-32768) := by
  decide

/-- R31: STATUS of a machine in error 3 is `4 + 8·3`. -/
theorem test_status :
    (first [103, 0, 99] []).map (fun t => t.statusReg) = some 28 := by decide

/-! ## The caller -/

/-- SE6: DRAIN returns the output and empties it. -/
theorem test_drain :
    nextOf (command Config.spec .drain { State.reset with outQ := [1, 2] }) =
      some (State.reset, .words [1, 2]) := by decide

/-- R113: a run that ends Halted or Blocked answers `ok`. -/
theorem test_run_result :
    (first [99] []).bind runResult = some .ok ∧ (first [3, 0, 99] []).bind runResult = some .ok := by decide

/-- RS2, RS4: RESET with every parameter true. -/
theorem test_reset :
    (nextOf (command small .reset
      { constructed small [1, 0, 0, 0, 99] [] with mem := programMemory [2], pc := 4, rb := 5, fsm := .halted })) =
      some (constructed small [1, 0, 0, 0, 99] [], .done) := by decide

/-- The word placed by the model is the one that runs first after reset (log 7). -/
theorem test_withFetchWord :
    (nextOf (step (State.reset.withFetchWord 64 99))).map (fun t => t.fsm) = some .halted := by decide

/-! ## Witnesses: states and operands that meet the hypotheses of the obligations -/

/-- A machine about to add, with a relative base and something in every queue. -/
def sample : State :=
  { machine [1101, 2, 3, 5, 99, 7] [8, 9] with rb := 3, outQ := [6] }

/-- IllegalOpcodesRaiseInvalidOpcode, at both ends of each range. -/
theorem witness_IllegalOpcodesRaiseInvalidOpcode :
    ∀ w ∈ [-1, 0, 100, 10, 98, 110, 198],
      (machine [w] []).fsm = .running ∧ 0 ≤ (machine [w] []).pc ∧
        (machine [w] []).pc < (machine [w] []).mem.len ∧
        (machine [w] []).mem.get (machine [w] []).pc.toNat = w ∧
        (w < 0 ∨ w % 100 = 0 ∨ (10 ≤ w % 100 ∧ w % 100 ≤ 98)) := by decide

/-- CellsOfWellFormedInstructionsAreWords, at 64 bits and at 16. -/
theorem witness_CellsOfWellFormedInstructionsAreWords :
    (Config.spec.legal = true ∧ (Instr.arb ⟨.immediate, -9223372036854775808⟩).wellFormed Config.spec = true) ∧
      small.legal = true ∧ (Instr.arb ⟨.immediate, 32767⟩).wellFormed small = true := by decide

theorem witness_StepRunsTheDecodedInstruction :
    sample.fsm = .running ∧ 0 ≤ sample.pc ∧ sample.pc + 4 ≤ sample.mem.len ∧
      decode ((List.range 4).map fun k => sample.mem.get (sample.pc.toNat + k)) =
        .ok (.add ⟨.immediate, 2⟩ ⟨.immediate, 3⟩ ⟨.positional, 5⟩) := by decide

/-- StepRunsTheDecodedInstruction in the last cell of memory. -/
theorem witness_StepRunsTheDecodedInstruction_last :
    (atEnd [99]).pc + (Instr.hlt.width : Int) = (atEnd [99]).mem.len ∧
      decode ((List.range 1).map fun k => (atEnd [99]).mem.get ((atEnd [99]).pc.toNat + k)) = .ok .hlt := by
  decide

/-- FetchWordIsTheNextInstruction; the second state has a `pc` that names no cell. -/
theorem witness_FetchWordIsTheNextInstruction :
    State.reset.mem.wf = true ∧ { State.reset with pc := -3 }.mem.wf = true ∧
      decodeTableWord 64 99 = some .hlt := by decide

theorem witness_EveryStepOfARunAnswersANextState :
    sample.fsm = .running ∧ State.reset.fsm ≠ .running := by decide

/-- FetchOutsideMemoryOverruns, just below and just above memory. -/
theorem witness_FetchOutsideMemoryOverruns :
    { sample with pc := -1 }.fsm = .running ∧ { sample with pc := -1 }.pc < 0 ∧
      { sample with pc := 8192 }.fsm = .running ∧
      ({ sample with pc := 8192 }.mem.len : Int) ≤ { sample with pc := 8192 }.pc := by decide

/-- MissingParameterCellOverruns, for each number a first missing parameter can have. -/
theorem witness_MissingParameterCellOverruns :
    ∀ k : Fin 3, ∃ s, s ∈ [atEnd [1], atEnd [1, 4], atEnd [1, 4, 4]] ∧ s.fsm = .running ∧ 0 ≤ s.pc ∧
      s.mem.get s.pc.toNat = 1 ∧
      decodeWord 1 = some ⟨.add, [.positional, .positional, .positional]⟩ ∧
      k.val < (Header.mk .add [.positional, .positional, .positional]).count ∧
      s.pc + 1 + k.val = s.mem.len := by decide

/-- FirstParameterErrorIsReported, for each kind of error. -/
theorem witness_FirstParameterErrorIsReported :
    firstError Config.spec sample (.inp ⟨.immediate, 5⟩) = some ⟨.illegalAddressingMode, some 0⟩ ∧
      firstError Config.spec sample (.jt ⟨.immediate, 1⟩ ⟨.positional, -1⟩) = some ⟨.addressOutOfRange, some 1⟩ ∧
      firstError Config.spec sample (.out ⟨.relative, 9223372036854775807⟩) = some ⟨.arithmeticOverflow, some 0⟩ ∧
      firstError small sample (.add ⟨.immediate, 1⟩ ⟨.immediate, 1⟩ ⟨.positional, 8192⟩) =
        some ⟨.addressOutOfRange, some 2⟩ := by decide

/-- AddStoresTheSum, into the last address memory can grow to. -/
theorem witness_AddStoresTheSum :
    readable Config.spec sample ⟨.immediate, 9223372036854775806⟩ = true ∧
      readable Config.spec sample ⟨.immediate, 1⟩ = true ∧
      writable Config.spec sample ⟨.positional, 4294967295⟩ = true ∧
      Config.spec.fits (valueOf Config.spec sample ⟨.immediate, 9223372036854775806⟩ +
        valueOf Config.spec sample ⟨.immediate, 1⟩) = true := by decide

theorem witness_MulStoresTheProduct :
    readable Config.spec sample ⟨.relative, 2⟩ = true ∧ readable Config.spec sample ⟨.positional, 0⟩ = true ∧
      writable Config.spec sample ⟨.relative, -3⟩ = true ∧
      Config.spec.fits (valueOf Config.spec sample ⟨.relative, 2⟩ *
        valueOf Config.spec sample ⟨.positional, 0⟩) = true := by decide

theorem witness_LessThanStoresOneOrZero :
    readable Config.spec sample ⟨.positional, 8191⟩ = true ∧ readable Config.spec sample ⟨.positional, 8192⟩ = true ∧
      writable Config.spec sample ⟨.positional, 0⟩ = true := by decide

theorem witness_EqualsStoresOneOrZero :
    readable Config.spec sample ⟨.relative, 2⟩ = true ∧ readable Config.spec sample ⟨.positional, 5⟩ = true ∧
      writable Config.spec sample ⟨.positional, 5⟩ = true := by decide

theorem witness_InputStoresTheFrontOfTheQueue :
    writable Config.spec sample ⟨.positional, 0⟩ = true ∧ sample.inQ = 8 :: [9] := by decide

theorem witness_InputOnAnEmptyQueueBlocks :
    writable Config.spec (machine [3, 9000, 99] []) ⟨.positional, 9000⟩ = true ∧
      (machine [3, 9000, 99] []).inQ = [] := by decide

/-- The hypothesis of OutputAppendsTheOperand, JumpIfTrueSetsThePc, JumpIfFalseSetsThePc and
PseudoInstructionsDoWhatTheyName: every form that can be read. -/
theorem witness_readable_operands :
    readable Config.spec sample ⟨.immediate, -9223372036854775808⟩ = true ∧
      readable Config.spec sample ⟨.positional, 0⟩ = true ∧
      readable Config.spec sample ⟨.positional, 4294967295⟩ = true ∧
      readable Config.spec sample ⟨.relative, -3⟩ = true ∧
      valueOf Config.spec sample ⟨.positional, 6⟩ = 0 ∧ valueOf Config.spec sample ⟨.positional, 5⟩ ≠ 0 := by
  decide

theorem witness_AdjustRelativeBaseAddsTheOperand :
    readable Config.spec sample ⟨.immediate, -4⟩ = true ∧
      Config.spec.fits (sample.rb + valueOf Config.spec sample ⟨.immediate, -4⟩) = true := by decide

/-- HaltOnlySetsTheStatus, with and without ignored digits. -/
theorem witness_HaltOnlySetsTheStatus :
    ∀ w ∈ [99, 1099, 9999999],
      (machine [w] []).fsm = .running ∧ 0 ≤ (machine [w] []).pc ∧
        (machine [w] []).pc < (machine [w] []).mem.len ∧
        (machine [w] []).mem.get (machine [w] []).pc.toNat = w ∧ 0 ≤ w ∧ w % 100 = 99 := by decide

/-- ResultOverflowRaises, one past the range for each of the three results. -/
theorem witness_ResultOverflowRaises :
    readable Config.spec sample ⟨.immediate, 9223372036854775807⟩ = true ∧
      readable Config.spec sample ⟨.immediate, 1⟩ = true ∧ readable Config.spec sample ⟨.immediate, 2⟩ = true ∧
      writable Config.spec sample ⟨.positional, 5⟩ = true ∧
      Config.spec.fits (valueOf Config.spec sample ⟨.immediate, 9223372036854775807⟩ +
        valueOf Config.spec sample ⟨.immediate, 1⟩) = false ∧
      Config.spec.fits (valueOf Config.spec sample ⟨.immediate, 9223372036854775807⟩ *
        valueOf Config.spec sample ⟨.immediate, 2⟩) = false ∧
      Config.spec.fits (sample.rb + valueOf Config.spec sample ⟨.immediate, 9223372036854775807⟩) = false := by
  decide

theorem witness_WrappedResultsAreCongruent :
    small.legal = true ∧ small.wordBits = some 16 ∧ small.overflowPolicy = .wrap ∧
      readable small sample ⟨.immediate, 32767⟩ = true ∧ readable small sample ⟨.immediate, 1⟩ = true ∧
      writable small sample ⟨.positional, 5⟩ = true ∧ small.fits (32767 + 1) = false := by decide

/-- NoOverflowErrorUnderWrapOrInf: a step that ends in an error, under `wrap` and with `INF`. -/
theorem witness_NoOverflowErrorUnderWrapOrInf :
    small.overflowPolicy = .wrap ∧ { Config.spec with wordBits := none }.wordBits = none ∧
      ∀ c ∈ [small, { Config.spec with wordBits := none }], ∃ t e,
        stepIn c (machine [103, 0] []) = .next t ∧ t.err = some e := by
  refine ⟨rfl, rfl, fun c hc => ?_⟩
  refine ⟨_, _, of_nextOf (t := raiseError (machine [103, 0] []) (illegalMode 0)) ?_, rfl⟩
  simp only [List.mem_cons, List.not_mem_nil, or_false] at hc
  rcases hc with rfl | rfl <;> decide

/-- RelativeParametersAddTheBase: a sum one past the range under `fault` and, at 16 bits, under `wrap`; a negative
one, and the least that is not. -/
theorem witness_RelativeParametersAddTheBase :
    Config.spec.overflowPolicy = .fault ∧ Config.spec.fits (sample.rb + 9223372036854775805) = false ∧
      small.overflowPolicy = .wrap ∧ small.legal = true ∧ small.wordBits = some 16 ∧
      small.fits (sample.rb + 32765) = false ∧
      Config.spec.fits (sample.rb + -4) = true ∧ sample.rb + -4 < 0 ∧
      Config.spec.fits (sample.rb + -3) = true ∧ ¬ sample.rb + -3 < 0 := by decide

/-- ImmediateAndPositionalOperandsAgree, at the first and the last cell. -/
theorem witness_ImmediateAndPositionalOperandsAgree :
    (0 : Int) ≤ 0 ∧ (0 : Int) < sample.mem.len ∧ sample.mem.get (0 : Int).toNat = 1101 ∧
      (8191 : Int) < sample.mem.len ∧ sample.mem.get (8191 : Int).toNat = 0 := by decide

/-- StoredWordIsFetchedNext: the target is the instruction's own opcode cell. -/
theorem witness_StoredWordIsFetchedNext :
    sample.mem.wf = true ∧ readable Config.spec sample ⟨.immediate, 4⟩ = true ∧
      readable Config.spec sample ⟨.positional, 5⟩ = true ∧ writable Config.spec sample ⟨.positional, 0⟩ = true ∧
      Config.spec.fits (valueOf Config.spec sample ⟨.immediate, 4⟩ +
        valueOf Config.spec sample ⟨.positional, 5⟩) = true ∧
      Config.spec.fits (valueOf Config.spec sample ⟨.immediate, 4⟩ *
        valueOf Config.spec sample ⟨.positional, 5⟩) = true ∧
      sample.inQ.head? = some 8 := by decide

/-- StrictMemoryNeverGrows: a construct, a step and a command at `strict`, and addresses at both edges. -/
theorem witness_StrictMemoryNeverGrows :
    small.memPolicy = .strict ∧
      construct small [99] [] = .next (constructed small [99] []) ∧
      (constructed small [99] []).lenFixed 8192 ∧
      (∃ t, stepIn small { constructed small [99] [] with fsm := .running } = .next t) ∧
      (∃ t, command small .reset (constructed small [99] []) = .next t) ∧
      ((-1 : Int) < 0 ∨ ((constructed small [99] []).mem.len : Int) ≤ -1) ∧
      ((8192 : Int) < 0 ∨ ((constructed small [99] []).mem.len : Int) ≤ 8192) :=
  ⟨rfl, of_nextOf (by decide), ⟨by decide, by intro m hm; cases hm; decide⟩, ⟨_, rfl⟩, ⟨_, rfl⟩, by decide,
    by decide⟩

/-- MemoryGrowsToTheCellsUsed and ProgramCounterAdvancesByTheWidth: a step that goes on and grows memory,
and steps that block and raise. -/
theorem witness_steps :
    (∃ t, stepIn Config.spec (machine [4, 9000] []) = .next t ∧ t.fsm = .running ∧
      fetchInstr (machine [4, 9000] []) = .ok (.out ⟨.positional, 9000⟩)) ∧
    (∃ t, stepIn Config.spec (machine [3, 9000] []) = .next t ∧ t.fsm ≠ .running) ∧
    (∃ t, stepIn Config.spec (machine [103, 0] []) = .next t ∧ t.fsm = .errored) ∧
    Config.spec.legal = true ∧ (machine [4, 9000] []).mem.len ≤ Config.spec.addrLimit :=
  ⟨⟨_, rfl, by decide, by decide⟩, ⟨_, rfl, by decide⟩, ⟨_, rfl, by decide⟩, by decide, by decide⟩

/-- The frames of ADD, MUL, LT and EQ (StoringInstructionsFrame): each answers a next state. -/
theorem witness_StoringInstructionsFrame (i : Instr)
    (hi : i ∈ [Instr.add ⟨.immediate, 1⟩ ⟨.immediate, 2⟩ ⟨.positional, 9⟩,
      .mul ⟨.immediate, 1⟩ ⟨.immediate, 2⟩ ⟨.positional, 9⟩, .lt ⟨.immediate, 1⟩ ⟨.immediate, 2⟩ ⟨.positional, 9⟩,
      .eq ⟨.immediate, 1⟩ ⟨.immediate, 2⟩ ⟨.positional, 9⟩]) :
    ∃ t, exec i sample = .next t ∧ t.fsm = .running := by
  simp only [List.mem_cons, List.not_mem_nil, or_false] at hi
  rcases hi with rfl | rfl | rfl | rfl <;> exact ⟨_, rfl, by decide⟩

/-- InputFrame: an IN that takes a word, and one that blocks. -/
theorem witness_InputFrame :
    (∃ t, exec (.inp ⟨.positional, 9⟩) sample = .next t ∧ t.inQ = [9]) ∧
      ∃ t, exec (.inp ⟨.positional, 9⟩) (machine [3, 9] []) = .next t ∧ t.fsm = .blocked :=
  ⟨⟨_, rfl, by decide⟩, ⟨_, rfl, by decide⟩⟩

/-- NonStoringInstructionsFrame: OUT, JT, JF and ARB answer a next state. -/
theorem witness_NonStoringInstructionsFrame (i : Instr)
    (hi : i ∈ [Instr.out ⟨.positional, 5⟩, .jt ⟨.positional, 5⟩ ⟨.immediate, 0⟩,
      .jf ⟨.positional, 5⟩ ⟨.immediate, 0⟩, .arb ⟨.positional, 5⟩]) :
    ∃ t, exec i sample = .next t ∧ t.fsm = .running := by
  simp only [List.mem_cons, List.not_mem_nil, or_false] at hi
  rcases hi with rfl | rfl | rfl | rfl <;> exact ⟨_, rfl, by decide⟩

/-- ErrorsArePrecise: a step that ends in an error. -/
theorem witness_ErrorsArePrecise :
    ∃ t, stepIn Config.spec (machine [103, 0] [5]) = .next t ∧ t.fsm = .errored := ⟨_, rfl, by decide⟩

/-- TransitionsAreThoseOfTheTable, InputQueueHasTwoWriters, OutputQueueWriters, OnlyArbAndResetWriteTheBase:
CONSTRUCT, a step and each command answer, and a terminal machine exists. -/
theorem witness_commands :
    (∃ t, construct small [1] [2] = .next t) ∧ (∃ t, stepIn small sample = .next t) ∧
      (∀ cmd ∈ [Command.run [7], .drain, .reset, .isHalted, .trace true],
        ∃ t r, command small cmd (constructed small [99] []) = .next (t, r)) ∧
      { State.reset with fsm := .halted }.fsm = .halted ∧ { State.reset with fsm := .errored }.fsm = .errored := by
  refine ⟨⟨_, rfl⟩, ⟨_, rfl⟩, fun cmd hc => ?_, rfl, rfl⟩
  simp only [List.mem_cons, List.not_mem_nil, or_false] at hc
  rcases hc with rfl | rfl | rfl | rfl | rfl <;> exact ⟨_, _, rfl⟩

theorem witness_AdjustmentsOfTheBaseAdd :
    Config.spec.fits (sample.rb + 4) = true ∧ Config.spec.fits (sample.rb + 4 + -9) = true ∧
      Config.spec.fits (sample.rb + 4 + -9 + 13) = true := by decide

/-- PseudoInstructionsDoWhatTheyName: operands that resolve, one through a label. -/
theorem witness_PseudoInstructionsDoWhatTheyName :
    (AsmOperand.imm (.label 3)).resolve [.nop, .label 3] = some ⟨.immediate, 2⟩ ∧
      (AsmOperand.pos (.num 4)).resolve [.nop, .label 3] = some ⟨.positional, 4⟩ ∧
      (AsmOperand.rbMinus (.num 4)).resolve [.nop, .label 3] = some ⟨.relative, -4⟩ ∧
      Config.spec.fits (valueOf Config.spec sample ⟨.positional, 5⟩) = true ∧
      writable Config.spec sample ⟨.relative, 0⟩ = true ∧ Config.spec.fits sample.rb = true := by decide

/-- A state in a run that meets the invariant, its memory not all zero. -/
theorem witness_inv :
    State.Inv Config.spec { State.reset with mem := { cells := [(0, 99)], len := 8192 }, fsm := .running } where
  mem :=
    { wf := by decide
      len_min := by decide
      len_max := by decide
      words := by
        intro a
        change Config.spec.fits (if a = 0 then 99 else 0) = true
        split <;> decide }
  pc := by decide
  rb := by decide
  inQ := by decide
  outQ := by decide
  err := by decide
  image := by decide
  imageGood := by intro m hm; cases hm

/-- StepKeepsTheInvariant: that state takes a step. -/
theorem witness_StepKeepsTheInvariant :
    Config.spec.legal = true ∧
      ∃ t, step { State.reset with mem := { cells := [(0, 99)], len := 8192 }, fsm := .running } = .next t :=
  ⟨by decide, _, rfl⟩

/-- CommandsKeepTheInvariant: a state between runs that meets the invariant, and every command on it. -/
theorem witness_CommandsKeepTheInvariant :
    State.Inv Config.spec { State.reset with fsm := .blocked, inQ := [], outQ := [5] } ∧
      ∀ cmd ∈ [Command.run [7], .drain, .reset, .isHalted, .trace false],
        ∃ t r, command Config.spec cmd { State.reset with fsm := .blocked, inQ := [], outQ := [5] } =
          .next (t, r) := by
  refine ⟨?_, fun cmd hc => ?_⟩
  · refine ⟨⟨by decide, by decide, by decide, fun a => ?_⟩, by decide, by decide, by decide, by decide, by decide,
      by decide, ?_⟩
    · change Config.spec.fits 0 = true
      decide
    · intro m hm; cases hm
  · simp only [List.mem_cons, List.not_mem_nil, or_false] at hc
    rcases hc with rfl | rfl | rfl | rfl | rfl <;> exact ⟨_, _, rfl⟩

/-- ConstructLoadsTheProgram, at the edges of the Word range. -/
theorem witness_ConstructLoadsTheProgram :
    admits Config.spec [9223372036854775807, -9223372036854775808] = true ∧ admits Config.spec [5] = true ∧
      [9223372036854775807, (-9223372036854775808 : Int)].length ≤ Config.spec.addrLimit := by decide

/-- RunAppendsItsInputOrIsRefused: each reason to refuse CONSTRUCT, and each state a RUN can meet. -/
theorem witness_RunAppendsItsInputOrIsRefused :
    admits Config.spec [9223372036854775808] = false ∧ admits small [32768] = false ∧
      { small with addrLimit := 1 }.addrLimit < [(1 : Int), 2].length ∧
      State.reset.fsm = .ready ∧ { State.reset with fsm := .blocked }.fsm = .blocked ∧
      admits Config.spec [5] = true ∧ { State.reset with fsm := .halted }.fsm = .halted ∧
      { State.reset with fsm := .errored }.fsm = .errored ∧ sample.fsm = .running := by decide

/-- DrainReturnsTheOutputOnce, ResetCommandEffect, IsHaltedAnswersTheStatus: a machine between runs, with and
without an image. -/
theorem witness_between_runs :
    { sample with fsm := .blocked }.fsm ≠ .running ∧ { sample with fsm := .halted }.fsm = .halted ∧
      Config.spec.resetRestoresMemory = false ∧ small.resetRestoresMemory = true ∧
      (constructed small [99] []).image0 = some (programMemory [99]) ∧
      (constructed small [99] []).fsm = .ready := by decide

/-- ErrorRegistersReadTheRecord, with every field present and with none. -/
theorem witness_ErrorRegistersReadTheRecord :
    { sample with fsm := .errored, err := some ⟨.addressOutOfRange, 4, some 4, some 2⟩ }.err =
        some ⟨.addressOutOfRange, 4, some 4, some 2⟩ ∧
      { sample with fsm := .errored, err := some ⟨.programCounterOverrun, -1, none, none⟩ }.err =
        some ⟨.programCounterOverrun, -1, none, none⟩ := by decide

/-! ## Runs -/

/-- A run that ends: HLT. -/
theorem witness_run_ends :
    (machine [99] []).fsm = .running ∧
      RunsTo Config.spec (machine [99] []) { machine [99] [] with fsm := .halted } :=
  ⟨rfl, .step _ _ _ (of_nextOf (by decide)) (.ended _ (by decide))⟩

/-- `JT #1, #0` at cell 0: a step leads back to the same state. -/
theorem loop_step : stepIn Config.spec (machine [1105, 1, 0] []) = .next (machine [1105, 1, 0] []) :=
  of_nextOf (by decide)

/-- A run that never ends (R115), so EveryRunEndsOnceOrDiverges has both cases. -/
theorem witness_run_diverges : Diverges Config.spec (machine [1105, 1, 0] []) := by
  intro n
  refine ⟨machine [1105, 1, 0] [], ?_, rfl⟩
  induction n with
  | zero => rfl
  | succ n ih => exact ⟨_, loop_step, ih⟩

/-- A program that outputs 5, then takes an input into cell 0 and halts, after CONSTRUCT. -/
def start : State := constructed Config.spec [104, 5, 3, 0, 99] []

/-- That machine after a first RUN without input. -/
def waiting : State := { start with pc := 2, outQ := [5], fsm := .blocked }

theorem run_to_waiting : Run Config.spec [] start waiting :=
  ⟨_, rfl, .step _ { start with pc := 2, outQ := [5], fsm := .running } _ (of_nextOf (by decide))
    (.step _ _ _ (of_nextOf (by decide)) (.ended _ (by decide)))⟩

/-- That machine after a second RUN with the input 7; the output is what was not drained before it. -/
def finished (output : List Int) : State :=
  { start with mem := programMemory [7, 5, 3, 0, 99], pc := 4, outQ := output, fsm := .halted }

theorem run_to_finished : Run Config.spec [7] waiting (finished [5]) :=
  ⟨_, rfl, .step _ { finished [5] with fsm := .running } _ (of_nextOf (by decide))
    (.step _ _ _ (of_nextOf (by decide)) (.ended _ (by decide)))⟩

theorem run_to_finished_drained : Run Config.spec [7] (drained waiting) (finished []) :=
  ⟨_, rfl, .step _ { finished [] with fsm := .running } _ (of_nextOf (by decide))
    (.step _ _ _ (of_nextOf (by decide)) (.ended _ (by decide)))⟩

/-- InputTimingDoesNotMatter: two RUNs, without a DRAIN between them and with one that returns a word; and input
given at CONSTRUCT. -/
theorem witness_InputTimingDoesNotMatter :
    RunsAcross Config.spec start [[], [7]] [] (finished [5]) ∧
      RunsAcross Config.spec start [[], [7]] ([5] ++ []) (finished []) ∧
      admits Config.spec [7] = true :=
  ⟨.more _ _ _ _ _ _ run_to_waiting rfl (.last _ _ _ run_to_finished),
    .drain _ _ _ _ _ _ run_to_waiting rfl (.last _ _ _ run_to_finished_drained), by decide⟩

end Sys2Proof.Tests
end

section
/-!
PROOF. Results under `wrap` (00_scope.md R11, R17): what ADD, MUL and ARB leave on usable parameters, in terms of
the overflow check, and what that check answers under `wrap`.
-/

namespace Sys2Proof.Machine

/-! ## Usable parameters raise no error (R82, R207) -/

theorem firstErrorFrom_read_none {c : Config} {s : State} {a : Param} (ha : readable c s a = true) :
    firstErrorFrom c s 0 [(.read, a)] = none := by
  simp only [firstErrorFrom, paramError_read_none.2 ha]

theorem firstErrorFrom_read_read_write_none {c : Config} {s : State} {a b d : Param}
    (ha : readable c s a = true) (hb : readable c s b = true) (hd : writable c s d = true) :
    firstErrorFrom c s 0 [(.read, a), (.read, b), (.write, d)] = none := by
  simp only [firstErrorFrom, paramError_read_none.2 ha, paramError_read_none.2 hb,
    paramError_write_none.2 hd]

/-! ## The results of usable parameters -/

/-- The effects of an F3RRW instruction whose result is `r`, committed (R68, R74). -/
theorem conclude_storeBody {c : Config} {s : State} {f : Int → Int → Option Int} {a b d : Param} {r : Int}
    (hr : f (valueOf c s a) (valueOf c s b) = some r) :
    conclude s (storeBody c s f a b d) = .next (stored c s [a, b, d] d r 4) := by
  simp [storeBody, hr, commit, stored]

/-- ADD on usable parameters stores what the overflow check makes of the sum (R131). -/
theorem execIn_add_of_chk {c : Config} {s : State} {a b d : Param} {r : Int}
    (ha : readable c s a = true) (hb : readable c s b = true) (hd : writable c s d = true)
    (hr : chk c (valueOf c s a + valueOf c s b) = some r) :
    execIn c (.add a b d) s = .next (stored c s [a, b, d] d r 4) := by
  rw [execIn_of_no_error (i := .add a b d) nofun (firstErrorFrom_read_read_write_none ha hb hd)]
  exact conclude_storeBody (f := fun x y => chk c (x + y)) hr

/-- MUL on usable parameters stores what the overflow check makes of the product (R132). -/
theorem execIn_mul_of_chk {c : Config} {s : State} {a b d : Param} {r : Int}
    (ha : readable c s a = true) (hb : readable c s b = true) (hd : writable c s d = true)
    (hr : chk c (valueOf c s a * valueOf c s b) = some r) :
    execIn c (.mul a b d) s = .next (stored c s [a, b, d] d r 4) := by
  rw [execIn_of_no_error (i := .mul a b d) nofun (firstErrorFrom_read_read_write_none ha hb hd)]
  exact conclude_storeBody (f := fun x y => chk c (x * y)) hr

/-- ARB on a readable parameter sets the base to what the overflow check makes of the sum (R180). -/
theorem execIn_arb_of_chk {c : Config} {s : State} {a : Param} {r : Int} (ha : readable c s a = true)
    (hr : chk c (s.rb + valueOf c s a) = some r) :
    execIn c (.arb a) s = .next { s with
      mem := s.mem.setLen (lenAfter c s [a])
      pc := s.pc + 2
      rb := r } := by
  rw [execIn_of_no_error (i := .arb a) nofun (firstErrorFrom_read_none ha)]
  simp [bodyOf, hr, commit, Pending.advance]

/-! ## The overflow check under `wrap` (R11, R17) -/

/-- Under `wrap` at a finite width the overflow check always answers, and with the Word congruent to the value
it is given: the value itself where it fits, and the wrapped one elsewhere. -/
theorem chk_wrap_congruent {c : Config} {bits : Nat} (hl : c.legal = true) (hw : c.wordBits = some bits)
    (hp : c.overflowPolicy = .wrap) (v : Int) :
    ∃ r, chk c v = some r ∧ c.fits r = true ∧ (2 : Int) ^ bits ∣ r - v := by
  cases hf : c.fits v with
  | true => exact ⟨v, chk_of_fits hf, hf, by simp⟩
  | false => exact ⟨wrapWord c v, chk_wrap hf hp, wrapWord_fits hl v, wrapWord_dvd hw v⟩

/-- Settles O24: under `wrap` the overflow check answers a congruent Word for every value, and each of the three
instructions leaves what the check answers. -/
theorem wrappedResultsAreCongruent : Obligations.WrappedResultsAreCongruent := by
  intro c bits hl hw hp s a b d ha
  refine ⟨fun hb hd => ⟨?_, ?_⟩, ?_⟩
  · obtain ⟨r, hr, hfit, hdvd⟩ := chk_wrap_congruent hl hw hp (valueOf c s a + valueOf c s b)
    exact ⟨r, hfit, hdvd, execIn_add_of_chk ha hb hd hr⟩
  · obtain ⟨r, hr, hfit, hdvd⟩ := chk_wrap_congruent hl hw hp (valueOf c s a * valueOf c s b)
    exact ⟨r, hfit, hdvd, execIn_mul_of_chk ha hb hd hr⟩
  · obtain ⟨r, hr, hfit, hdvd⟩ := chk_wrap_congruent hl hw hp (s.rb + valueOf c s a)
    exact ⟨r, hfit, hdvd, execIn_arb_of_chk ha hr⟩

end Sys2Proof.Machine
end

section
/-!
PROOF. What an instruction that completes does to each part of the state (R39, R68), said once: `Completes` lists
the pending effects field by field, and one lemma per field of the state follows for every instruction. The frames
of 10_state.md are read off these.
-/

namespace Sys2Proof.Machine

/-- Where a stored word comes from: the overflow check (ADD, MUL), a comparison (LT, EQ) or the front of the input
queue (IN). -/
inductive StoredWord (c : Config) (s : State) (v : Int) : Prop where
  | checked (u : Int) (h : chk c u = some v)
  | compared (b : Bool) (h : v = truthWord b)
  | taken (h : v ∈ s.inQ)

/-- The pending effects `p` of instruction `i`, completing in state `s`. -/
structure Completes (c : Config) (s : State) (i : Instr) (p : Pending) : Prop where
  len : p.len = lenAfter c s (i.params.map fun q => q.2)
  write : (writeParam i = none ∧ p.write = none) ∨
    ∃ d v, writeParam i = some d ∧ p.write = some (targetOf c s d, v) ∧ StoredWord c s v
  pc : p.pc = (jumpTarget c s i).getD (s.pc + i.width)
  rb : p.rb = s.rb ∨ ∃ a, i = .arb a ∧ chk c (s.rb + valueOf c s a) = some p.rb
  pop : p.pop = false ∨ ∃ a v q, i = .inp a ∧ s.inQ = v :: q
  push : p.push = none ∨ ∃ a, i = .out a ∧ p.push = some (valueOf c s a)

/-! ## The shapes of an instruction -/

/-- An F3RRW instruction completes with its result `f` of the two operands, in the cell its target names (R74). -/
theorem storeBody_completes {c : Config} {s : State} {i : Instr} {f : Int → Int → Option Int} {a b d : Param}
    {p : Pending} (h : storeBody c s f a b d = .done p)
    (hps : i.params = [(.read, a), (.read, b), (.write, d)]) (hd : writeParam i = some d)
    (hj : jumpTarget c s i = none) (hf : ∀ x y r, f x y = some r → StoredWord c s r) : Completes c s i p := by
  unfold storeBody at h
  split at h
  · cases h
  · rename_i r hr
    cases h
    have hw : i.width = 4 := by simp [Instr.width, hps]
    exact ⟨by simp [hps], .inr ⟨d, r, hd, rfl, hf _ _ r hr⟩, by simp [hj, hw], .inl rfl, .inl rfl,
      .inl rfl⟩

/-- An F2RR instruction completes at the target of the jump where it is taken, else behind itself (R74, R106). -/
theorem jumpBody_completes {c : Config} {s : State} {i : Instr} {taken : Int → Bool} {a b : Param} {p : Pending}
    (h : jumpBody c s taken a b = .done p) (hps : i.params = [(.read, a), (.read, b)])
    (hd : writeParam i = none)
    (hj : jumpTarget c s i = if taken (valueOf c s a) then some (valueOf c s b) else none) :
    Completes c s i p := by
  cases h
  have hw : i.width = 3 := by simp [Instr.width, hps]
  refine ⟨by simp [hps], .inl ⟨hd, rfl⟩, ?_, .inl rfl, .inl rfl, .inl rfl⟩
  rw [hj, hw]
  cases taken (valueOf c s a) <;> rfl

/-- Every instruction that completes has the effects `Completes` lists. -/
theorem bodyOf_completes {c : Config} {s : State} {i : Instr} {p : Pending} (h : bodyOf c s i = .done p) :
    Completes c s i p := by
  cases i with
  | add a b d =>
    exact storeBody_completes (f := fun x y => chk c (x + y)) h rfl rfl rfl
      fun x y _ hr => .checked (x + y) hr
  | mul a b d =>
    exact storeBody_completes (f := fun x y => chk c (x * y)) h rfl rfl rfl
      fun x y _ hr => .checked (x * y) hr
  | lt a b d =>
    exact storeBody_completes (f := fun x y => some (truthWord (decide (x < y)))) h rfl rfl rfl
      fun _ _ _ hr => .compared _ (Option.some.inj hr).symm
  | eq a b d =>
    exact storeBody_completes (f := fun x y => some (truthWord (decide (x = y)))) h rfl rfl rfl
      fun _ _ _ hr => .compared _ (Option.some.inj hr).symm
  | jt a b => exact jumpBody_completes h rfl rfl (by simp [jumpTarget, condTrue])
  | jf a b => exact jumpBody_completes h rfl rfl (by simp [jumpTarget, condFalse])
  | inp a =>
    simp only [bodyOf] at h
    split at h
    · cases h
    · rename_i v q hq
      cases h
      exact ⟨rfl, .inr ⟨a, v, rfl, rfl, .taken (by simp [hq])⟩, rfl, .inl rfl,
        .inr ⟨a, v, q, rfl, hq⟩, .inl rfl⟩
  | out a =>
    cases h
    exact ⟨rfl, .inl ⟨rfl, rfl⟩, rfl, .inl rfl, .inl rfl, .inr ⟨a, rfl, rfl⟩⟩
  | arb a =>
    simp only [bodyOf] at h
    split at h
    · cases h
    · rename_i r hr
      cases h
      exact ⟨rfl, .inl ⟨rfl, rfl⟩, rfl, .inr ⟨a, rfl, hr⟩, .inl rfl, .inl rfl⟩
  | hlt => cases h

/-! ## The parameters of an instruction without an error -/

/-- Where no parameter of a list raises, each can be read. -/
theorem readable_of_firstErrorFrom_none {c : Config} {s : State} {ps : List (Access × Param)} {k : Nat}
    (h : firstErrorFrom c s k ps = none) {q : Access × Param} (hq : q ∈ ps) :
    readable c s q.2 = true ∧ (q.1 = .write → writable c s q.2 = true) := by
  induction ps generalizing k with
  | nil => cases hq
  | cons p rest ih =>
    simp only [firstErrorFrom] at h
    split at h
    · cases h
    · rename_i hp
      rcases List.mem_cons.1 hq with rfl | hq
      · obtain ⟨acc, p⟩ := q
        cases acc with
        | read => exact ⟨paramError_read_none.1 hp, nofun⟩
        | write => exact ⟨writable_readable (paramError_write_none.1 hp), fun _ => paramError_write_none.1 hp⟩
      · exact ih h hq

theorem writeParam_mem {i : Instr} {d : Param} (h : writeParam i = some d) : (.write, d) ∈ i.params := by
  cases i <;> cases h <;> simp [Instr.params]

/-- The write target of an instruction whose parameters raise no error names a cell in range. -/
theorem writable_of_firstError_none {c : Config} {s : State} {i : Instr} {d : Param}
    (he : firstError c s i = none) (hd : writeParam i = some d) : writable c s d = true :=
  (readable_of_firstErrorFrom_none he (writeParam_mem hd)).2 rfl

/-- The cell a writable target names is the one the instruction stores to. -/
theorem storeCell_of_writable {c : Config} {s : State} {i : Instr} {d : Param} (hd : writeParam i = some d)
    (hw : writable c s d = true) : storeCell c s i = some (targetOf c s d) := by
  obtain ⟨a, ha, -⟩ := writable_address hw
  simp [storeCell, targetOf, hd, ha]

/-! ## What an instruction does to each field of the state -/

section
variable {c : Config} {i : Instr} {s t : State} (h : execIn c i s = .next t)
include h

/-- Only ARB moves the relative base, to what the overflow check makes of the sum (R25, R180). -/
theorem execIn_rb : t.rb = s.rb ∨ ∃ a, i = .arb a ∧ chk c (s.rb + valueOf c s a) = some t.rb := by
  obtain ⟨p, -, hp, rfl⟩ | ⟨e, rfl⟩ | ⟨a, -, -, -, rfl⟩ | ⟨-, rfl⟩ := execIn_cases h
  · exact (bodyOf_completes hp).rb
  all_goals exact .inl rfl

/-- Only IN takes from the input queue, its front (R26, R140). -/
theorem execIn_inQ : t.inQ = s.inQ ∨ ∃ a v, i = .inp a ∧ s.inQ = v :: t.inQ := by
  obtain ⟨p, -, hp, rfl⟩ | ⟨e, rfl⟩ | ⟨a, -, -, -, rfl⟩ | ⟨-, rfl⟩ := execIn_cases h
  · rcases (bodyOf_completes hp).pop with hpop | ⟨a, v, q, rfl, hq⟩
    · simp [hpop]
    · cases hpop : p.pop
      · simp [hpop]
      · exact .inr ⟨a, v, rfl, by simp [hpop, hq]⟩
  all_goals exact .inl rfl

/-- Only OUT appends to the output queue, its operand (R27, R141). -/
theorem execIn_outQ : t.outQ = s.outQ ∨ ∃ a, i = .out a ∧ t.outQ = s.outQ ++ [valueOf c s a] := by
  obtain ⟨p, -, hp, rfl⟩ | ⟨e, rfl⟩ | ⟨a, -, -, -, rfl⟩ | ⟨-, rfl⟩ := execIn_cases h
  · rcases (bodyOf_completes hp).push with hpush | ⟨a, rfl, hpush⟩
    · simp [hpush]
    · exact .inr ⟨a, rfl, by simp [hpush]⟩
  all_goals exact .inl rfl

/-- No instruction changes the memory image (R37). -/
theorem execIn_image0 : t.image0 = s.image0 := by
  obtain ⟨p, -, -, rfl⟩ | ⟨e, rfl⟩ | ⟨a, -, -, -, rfl⟩ | ⟨-, rfl⟩ := execIn_cases h <;> rfl

/-- The status stays, or an error is entered with nothing else changed, or an IN blocks, or HLT halts (R109). -/
theorem execIn_status :
    statusKeptOrError s t ∨ (∃ a, i = .inp a ∧ t = block s) ∨ (i = .hlt ∧ t = haltState s) := by
  obtain ⟨p, -, -, rfl⟩ | ⟨e, rfl⟩ | ⟨a, hi, -, -, rfl⟩ | ⟨hi, rfl⟩ := execIn_cases h
  · exact .inl (.inl ⟨rfl, rfl⟩)
  · exact .inl (.inr ⟨rfl, rfl, rfl, rfl, rfl, rfl, rfl⟩)
  · exact .inr (.inl ⟨a, hi, rfl⟩)
  · exact .inr (.inr ⟨hi, rfl⟩)

/-- No cell changes but the one the instruction stores to, if it names one (R63). -/
theorem execIn_cellsKept : cellsKept c i s t := by
  obtain ⟨p, he, hp, rfl⟩ | ⟨e, rfl⟩ | ⟨a, -, -, -, rfl⟩ | ⟨-, rfl⟩ := execIn_cases h
  · rcases (bodyOf_completes hp).write with ⟨-, hw⟩ | ⟨d, v, hd, hw, -⟩
    · exact ⟨fun _ _ x _ => by simp [hw], fun _ x => by simp [hw]⟩
    · rw [cellsKept, storeCell_of_writable hd (writable_of_firstError_none he hd)]
      refine ⟨fun ea hea x hx => ?_, nofun⟩
      cases hea
      simp [hw, Memory.set_get_other _ v hx]
  all_goals exact ⟨fun _ _ _ _ => rfl, fun _ _ => rfl⟩

/-- An instruction without a write target changes no cell. -/
theorem execIn_get_of_no_target (hi : writeParam i = none) (x : Nat) : t.mem.get x = s.mem.get x :=
  (execIn_cellsKept h).2 (by simp [storeCell, hi]) x

end

/-! ## The frames (R39) -/

/-- Settles O31: these instructions are none of those that move the base, touch a queue, block or halt. -/
theorem storingInstructionsFrame : Obligations.StoringInstructionsFrame := by
  intro s t a b d i hi h
  rw [exec_eq_execIn] at h
  have hnot : (∀ x, i ≠ .arb x) ∧ (∀ x, i ≠ .inp x) ∧ (∀ x, i ≠ .out x) ∧ i ≠ .hlt := by
    rcases hi with rfl | rfl | rfl | rfl <;> exact ⟨nofun, nofun, nofun, nofun⟩
  obtain ⟨harb, hinp, hout, hhlt⟩ := hnot
  exact ⟨(execIn_rb h).resolve_right fun ⟨x, hx, _⟩ => harb x hx,
    (execIn_inQ h).resolve_right fun ⟨x, _, hx, _⟩ => hinp x hx,
    (execIn_outQ h).resolve_right fun ⟨x, hx, _⟩ => hout x hx,
    execIn_image0 h,
    (execIn_status h).resolve_right fun hx => hx.elim (fun ⟨x, hx, _⟩ => hinp x hx) fun hx => hhlt hx.1,
    execIn_cellsKept h⟩

/-- Settles O32: IN neither moves the base nor outputs, and it may take the front of the queue or block. -/
theorem inputFrame : Obligations.InputFrame := by
  intro s t a h
  rw [exec_eq_execIn] at h
  refine ⟨(execIn_rb h).resolve_right nofun, (execIn_outQ h).resolve_right nofun, execIn_image0 h, ?_, ?_,
    execIn_cellsKept h⟩
  · rcases execIn_inQ h with hq | ⟨_, v, -, hq⟩
    · exact .inl hq
    · exact .inr (by simp [hq])
  · rcases execIn_status h with hs | ⟨_, -, hs⟩ | ⟨hx, -⟩
    · exact .inl hs
    · exact .inr hs
    · cases hx

/-- Settles O33: these instructions have no write target and never take input, block or halt. -/
theorem nonStoringInstructionsFrame : Obligations.NonStoringInstructionsFrame := by
  intro s t a b i hi h
  rw [exec_eq_execIn] at h
  have hnot : writeParam i = none ∧ (∀ x, i ≠ .inp x) ∧ i ≠ .hlt ∧ (∀ x, i = .arb x → x = a) ∧
      ∀ x, i = .out x → x = a := by
    rcases hi with rfl | rfl | rfl | rfl <;> simp [writeParam, eq_comm]
  obtain ⟨hw, hinp, hhlt, harb, hout⟩ := hnot
  refine ⟨execIn_get_of_no_target h hw, (execIn_inQ h).resolve_right fun ⟨x, _, hx, _⟩ => hinp x hx,
    execIn_image0 h,
    (execIn_status h).resolve_right fun hx => hx.elim (fun ⟨x, hx, _⟩ => hinp x hx) fun hx => hhlt hx.1,
    fun hne => (execIn_rb h).resolve_right fun ⟨x, hx, _⟩ => hne (harb x hx ▸ hx),
    fun hne => (execIn_outQ h).resolve_right fun ⟨x, hx, _⟩ => hne (hout x hx ▸ hx), ?_⟩
  rcases execIn_outQ h with hq | ⟨x, hx, hq⟩
  · exact .inl hq
  · exact .inr (hout x hx ▸ hq)

end Sys2Proof.Machine
end

section
/-!
PROOF. The invariant of the machine's state (R21 to R27, R30, R37, R51): a good memory stays good through growth
and a store of a Word, and so every way an instruction can end keeps the invariant.
-/

namespace Sys2Proof.Machine

/-! ## Good memories (R22, R51) -/

theorem Memory.Good.setLen {c : Config} {m : Memory} (hm : m.Good c) {n : Nat} (hn : m.len ≤ n)
    (hmax : n ≤ c.addrLimit) : (m.setLen n).Good c :=
  ⟨Memory.setLen_wf hm.wf hn, hm.len_min.trans hn, hmax, hm.words⟩

theorem Memory.Good.set {c : Config} {m : Memory} (hm : m.Good c) {a : Nat} (ha : a < m.len) {v : Int}
    (hv : c.fits v = true) : (m.set a v).Good c := by
  refine ⟨Memory.set_wf hm.wf v ha, hm.len_min, hm.len_max, fun b => ?_⟩
  by_cases hb : b = a
  · rw [hb, Memory.set_get_same hm.wf]; exact hv
  · rw [Memory.set_get_other _ _ hb]; exact hm.words b

/-! ## The length after an instruction (R55) -/

/-- `lenAfter` is the least length that holds memory and every cell the parameters name. -/
theorem lenAfter_le_iff {c : Config} {s : State} {ps : List Param} {n : Nat} :
    lenAfter c s ps ≤ n ↔ s.mem.len ≤ n ∧ ∀ p ∈ ps, reachOf c s p ≤ n := by
  unfold lenAfter
  generalize s.mem.len = l
  induction ps generalizing l with
  | nil => simp
  | cons p ps ih => simp [ih, and_assoc]

/-- Parameters without an error ask for no more than `ADDR_LIMIT`. -/
theorem lenAfter_le_addrLimit {c : Config} {s : State} {i : Instr} (he : firstError c s i = none)
    (hl : s.mem.len ≤ c.addrLimit) : lenAfter c s (i.params.map fun q => q.2) ≤ c.addrLimit := by
  refine lenAfter_le_iff.2 ⟨hl, fun p hp => ?_⟩
  obtain ⟨q, hq, rfl⟩ := List.mem_map.1 hp
  rcases reachOf_le (readable_of_firstErrorFrom_none he hq).1 with hr | ⟨-, hr⟩
  · exact hr.trans hl
  · exact hr

/-- The target of an instruction without an error lies below the length it leaves. -/
theorem targetOf_lt_lenAfter {c : Config} {s : State} {i : Instr} {d : Param} (he : firstError c s i = none)
    (hd : writeParam i = some d) : targetOf c s d < lenAfter c s (i.params.map fun q => q.2) :=
  (targetOf_lt_reachOf (writable_of_firstError_none he hd)).trans_le
    ((lenAfter_le_iff.1 le_rfl).2 d (List.mem_map.2 ⟨_, writeParam_mem hd, rfl⟩))

/-! ## The values an instruction handles are Words -/

/-- The operand of a parameter whose literal is a Word is a Word (R78). -/
theorem valueOf_fits {c : Config} {s : State} {p : Param} (hl : c.legal = true)
    (hm : ∀ a, c.fits (s.mem.get a) = true) (hp : c.fits p.lit = true) : c.fits (valueOf c s p) = true := by
  have h0 : c.fits 0 = true := small_fits hl (by norm_num) (by norm_num)
  unfold valueOf
  split
  · exact hp
  · split
    · exact h0
    · split
      · exact hm _
      · exact h0

theorem StoredWord.fits {c : Config} {s : State} {v : Int} (hl : c.legal = true)
    (hq : ∀ u ∈ s.inQ, c.fits u = true) (h : StoredWord c s v) : c.fits v = true := by
  cases h with
  | checked u hu => exact chk_fits hl hu
  | compared b hb => cases b <;> exact hb ▸ small_fits hl (by decide) (by decide)
  | taken hv => exact hq v hv

/-- A taken jump goes to the operand of one of its parameters. -/
theorem jumpTarget_eq_some {c : Config} {s : State} {i : Instr} {v : Int} (h : jumpTarget c s i = some v) :
    ∃ q ∈ i.params, v = valueOf c s q.2 := by
  unfold jumpTarget at h
  split at h
  case h_1 a b | h_2 a b =>
    split at h
    · cases h; exact ⟨(.read, b), by simp [Instr.params], rfl⟩
    · cases h
  all_goals cases h

/-! ## Every way an instruction can end keeps the invariant -/

theorem raiseError_inv {c : Config} {s : State} (hs : s.Inv c) (e : Trap) : (raiseError s e).Inv c :=
  { hs with err := by simp }

/-- Without an error before, a change of `fsm` to anything but Errored keeps the invariant. -/
theorem State.Inv.withFsm {c : Config} {s : State} (hs : s.Inv c) (hf : s.fsm ≠ .errored) {f : Fsm}
    (hne : f ≠ .errored) : State.Inv c { s with fsm := f } :=
  { hs with err := iff_of_false (fun h => hf (hs.err.1 h)) hne }

/-- The literals of `i` and the address behind it are Words, as they are for an instruction in memory. -/
structure WordsOf (c : Config) (s : State) (i : Instr) : Prop where
  lits : ∀ q ∈ i.params, c.fits q.2.lit = true
  pcBehind : c.fits (s.pc + i.width) = true

theorem fetchInstr_wordsOf {c : Config} {s : State} {i : Instr} (hl : c.legal = true) (hs : s.Inv c)
    (hf : fetchInstr s = .ok i) : WordsOf c s i := by
  obtain ⟨h0, hw, hlit⟩ := fetchInstr_ok hf
  have hmax := hs.mem.len_max
  refine ⟨fun q hq => ?_, address_fits hl (by omega) (by omega)⟩
  obtain ⟨a, ha⟩ := hlit q hq
  exact ha ▸ hs.mem.words a

/-- The effects of a completing instruction, committed, keep the invariant. -/
theorem commit_inv {c : Config} {s : State} {i : Instr} {p : Pending} (hl : c.legal = true) (hs : s.Inv c)
    (hw : WordsOf c s i) (he : firstError c s i = none) (hp : Completes c s i p) : (commit s p).Inv c := by
  have hval : ∀ q ∈ i.params, c.fits (valueOf c s q.2) = true := fun q hq =>
    valueOf_fits hl hs.mem.words (hw.lits q hq)
  have hgrown : (s.mem.setLen p.len).Good c :=
    hs.mem.setLen (hp.len ▸ (lenAfter_le_iff.1 le_rfl).1) (hp.len ▸ lenAfter_le_addrLimit he hs.mem.len_max)
  refine ⟨?mem, ?pc, ?rb, ?inQ, ?outQ, hs.err, hs.image, hs.imageGood⟩
  case mem =>
    rw [commit_mem]
    rcases hp.write with ⟨-, hwr⟩ | ⟨d, v, hd, hwr, hv⟩
    · rw [hwr]; exact hgrown
    · rw [hwr]
      exact hgrown.set (by rw [Memory.setLen_len, hp.len]; exact targetOf_lt_lenAfter he hd) (hv.fits hl hs.inQ)
  case pc =>
    rw [commit_pc, hp.pc]
    cases hj : jumpTarget c s i with
    | none => exact hw.pcBehind
    | some v =>
      obtain ⟨q, hq, rfl⟩ := jumpTarget_eq_some hj
      exact hval q hq
  case rb =>
    rw [commit_rb]
    rcases hp.rb with hrb | ⟨a, -, hrb⟩
    · rw [hrb]; exact hs.rb
    · exact chk_fits hl hrb
  case inQ =>
    intro v hv
    rw [commit_inQ] at hv
    split at hv
    · exact hs.inQ v (List.mem_of_mem_tail hv)
    · exact hs.inQ v hv
  case outQ =>
    intro v hv
    rcases List.mem_append.1 hv with hv | hv
    · exact hs.outQ v hv
    · rcases hp.push with hpush | ⟨a, rfl, hpush⟩
      · simp [hpush] at hv
      · have hva : v = valueOf c s a := by simpa [hpush] using hv
        exact hva ▸ hval (.read, a) (by simp [Instr.params])

/-- In a run, an instruction whose literals and next address are Words keeps the invariant. -/
theorem execIn_inv {c : Config} {s t : State} {i : Instr} (hl : c.legal = true) (hs : s.Inv c)
    (hr : s.fsm = .running) (hw : WordsOf c s i) (h : execIn c i s = .next t) : t.Inv c := by
  have hne : s.fsm ≠ .errored := by simp [hr]
  obtain ⟨p, he, hp, rfl⟩ | ⟨e, rfl⟩ | ⟨a, -, -, -, rfl⟩ | ⟨-, rfl⟩ := execIn_cases h
  · exact commit_inv hl hs hw he (bodyOf_completes hp)
  · exact raiseError_inv hs e
  · exact hs.withFsm hne nofun
  · exact hs.withFsm hne nofun

/-- Every step keeps the invariant: it raises, or it executes an instruction that lies in memory. -/
theorem stepIn_inv {c : Config} {s t : State} (hl : c.legal = true) (hs : s.Inv c) (h : stepIn c s = .next t) :
    t.Inv c := by
  obtain ⟨hr, ⟨e, -, rfl⟩ | ⟨i, hf, hx⟩⟩ := stepIn_cases h
  · exact raiseError_inv hs e
  · exact execIn_inv hl hs hr (fetchInstr_wordsOf hl hs hf) hx

/-- Settles O42, by `stepIn_inv`; `step` is `stepIn` at this spec's parameters, which are legal. -/
theorem stepKeepsTheInvariant : Obligations.StepKeepsTheInvariant :=
  ⟨fun _ _ _ hl hs h => stepIn_inv hl hs h,
    fun s _ hs h => stepIn_inv spec_legal hs (step_eq_stepIn s ▸ h)⟩

/-- A program of at most `ADDR_LIMIT` Words makes a good memory (R230). -/
theorem programMemory_good {c : Config} {program : List Int} (hl : c.legal = true)
    (hp : ∀ v ∈ program, c.fits v = true) (hlen : program.length ≤ c.addrLimit) :
    (programMemory program).Good c := by
  refine ⟨programMemory_wf program, le_max_right _ _, max_le hlen (legal_addrLimit hl), fun a => ?_⟩
  rw [programMemory_get]
  by_cases ha : a < program.length
  · simpa [ha] using hp _ (List.getElem_mem ha)
  · simpa [ha] using small_fits hl (by norm_num) (by norm_num)

/-- Settles O43: memory is that of the empty program (log 6), and every other field holds 0 or nothing. -/
theorem resetMeetsTheInvariant : Obligations.ResetMeetsTheInvariant :=
  { mem := programMemory_good (program := []) spec_legal nofun (Nat.zero_le _)
    pc := by decide
    rb := by decide
    inQ := nofun
    outQ := nofun
    err := by simp
    image := rfl
    imageGood := nofun }

end Sys2Proof.Machine
end

section
/-!
PROOF. The caller's commands (R100, R101) and who writes the queues and the relative base (R25 to R27): what an
accepted command answers, that it keeps the invariant, and with the lemmas on instructions and steps the writers of
each field.
-/

namespace Sys2Proof.Machine

/-! ## What an accepted command does -/

theorem construct_next {c : Config} {program input : List Int} {t : State}
    (h : construct c program input = .next t) : t = constructed c program input := by
  unfold construct at h
  split at h
  · cases h; rfl
  · cases h

theorem startRun_next {c : Config} {xs : List Int} {s t : State} (h : startRun c xs s = .next t) :
    (s.fsm = .ready ∨ s.fsm = .blocked) ∧ admits c xs = true ∧
      t = { s with inQ := s.inQ ++ xs, fsm := .running } := by
  unfold startRun at h
  split at h
  case h_4 hf | h_5 hf =>
    split at h
    · cases h; exact ⟨by simp [hf], by assumption, rfl⟩
    · cases h
  all_goals cases h

/-- What an accepted command does, one case per command (R100): none is accepted in a run (R101). -/
inductive Accepted (c : Config) (s : State) : Command → State → Response → Prop where
  | run (xs : List Int) (hf : s.fsm = .ready ∨ s.fsm = .blocked) (ha : admits c xs = true) :
      Accepted c s (.run xs) { s with inQ := s.inQ ++ xs, fsm := .running } .started
  | drain : Accepted c s .drain (drained s) (.words s.outQ)
  | reset : Accepted c s .reset (resetState c s) .done
  | isHalted : Accepted c s .isHalted s (.flag s.halted)
  | trace (on : Bool) : Accepted c s (.trace on) s .done

theorem command_next {c : Config} {cmd : Command} {s t : State} {r : Response}
    (h : command c cmd s = .next (t, r)) : s.fsm ≠ .running ∧ Accepted c s cmd t r := by
  unfold command at h
  split at h
  · cases h
  · refine ⟨by assumption, ?_⟩
    cases cmd with
    | run xs =>
      simp only [runCommand] at h
      split at h
      · rename_i u hu
        cases h
        obtain ⟨hf, ha, rfl⟩ := startRun_next hu
        exact .run xs hf ha
      · cases h
      · cases h
    | drain => cases h; exact .drain
    | reset => cases h; exact .reset
    | isHalted => cases h; exact .isHalted
    | trace on => cases h; exact .trace on

/-! ## Commands keep the invariant -/

theorem resetState_inv {c : Config} {s : State} (hl : c.legal = true) (hs : s.Inv c) :
    (resetState c s).Inv c := by
  have h0 : c.fits 0 = true := small_fits hl (by norm_num) (by norm_num)
  refine ⟨?mem, h0, ?rb, nofun, nofun, ?err, hs.image, hs.imageGood⟩
  case mem =>
    rw [resetState_mem]
    split
    · cases hi : s.image0 with
      | none => exact hs.mem
      | some m => exact hs.imageGood m hi
    · exact hs.mem
  case rb =>
    rw [resetState_rb]
    split
    · exact h0
    · exact hs.rb
  case err =>
    rw [resetState_err, resetState_fsm]
    cases c.resetClearsStatus
    · exact hs.err
    · simp

/-- Every command that is accepted keeps the invariant (R231, R232). -/
theorem command_inv {c : Config} {cmd : Command} {s t : State} {r : Response} (hl : c.legal = true)
    (hs : s.Inv c) (h : command c cmd s = .next (t, r)) : t.Inv c := by
  cases (command_next h).2 with
  | run xs hf ha =>
    have hne : s.fsm ≠ .errored := by rcases hf with hf | hf <;> simp [hf]
    have hxs : ∀ v ∈ xs, c.fits v = true := List.all_eq_true.1 ha
    exact { hs.withFsm hne (f := .running) nofun with
      inQ := fun v hv => (List.mem_append.1 hv).elim (hs.inQ v) (hxs v) }
  | drain => exact { hs with outQ := nofun }
  | reset => exact resetState_inv hl hs
  | isHalted => exact hs
  | trace on => exact hs

/-- A step or a command keeps the invariant. -/
theorem stepIn_or_command_inv {c : Config} {s t : State} (hl : c.legal = true) (hs : s.Inv c)
    (h : stepIn c s = .next t ∨ ∃ cmd r, command c cmd s = .next (t, r)) : t.Inv c := by
  rcases h with h | ⟨cmd, r, h⟩
  · exact stepIn_inv hl hs h
  · exact command_inv hl hs h

/-! ## What a step does to the queues and the base -/

theorem stepIn_inQ {c : Config} {s t : State} (h : stepIn c s = .next t) :
    t.inQ = s.inQ ∨ ∃ a v, fetchInstr s = .ok (.inp a) ∧ s.inQ = v :: t.inQ := by
  obtain ⟨-, ⟨e, -, rfl⟩ | ⟨i, hf, hx⟩⟩ := stepIn_cases h
  · exact .inl rfl
  · exact (execIn_inQ hx).imp_right fun ⟨a, v, hi, hq⟩ => ⟨a, v, hi ▸ hf, hq⟩

theorem stepIn_outQ {c : Config} {s t : State} (h : stepIn c s = .next t) :
    t.outQ = s.outQ ∨ ∃ a, fetchInstr s = .ok (.out a) ∧ t.outQ = s.outQ ++ [valueOf c s a] := by
  obtain ⟨-, ⟨e, -, rfl⟩ | ⟨i, hf, hx⟩⟩ := stepIn_cases h
  · exact .inl rfl
  · exact (execIn_outQ hx).imp_right fun ⟨a, hi, hq⟩ => ⟨a, hi ▸ hf, hq⟩

theorem stepIn_rb {c : Config} {s t : State} (h : stepIn c s = .next t) :
    t.rb = s.rb ∨ ∃ a, fetchInstr s = .ok (.arb a) := by
  obtain ⟨-, ⟨e, -, rfl⟩ | ⟨i, hf, hx⟩⟩ := stepIn_cases h
  · exact .inl rfl
  · exact (execIn_rb hx).imp_right fun ⟨a, hi, _⟩ => ⟨a, hi ▸ hf⟩

/-! ## The writers -/

/-- Settles O37: the writers are read off what CONSTRUCT, a step and an accepted command do, and the queue's words
off the invariant that each keeps. -/
theorem inputQueueHasTwoWriters : Obligations.InputQueueHasTwoWriters := by
  intro c
  refine ⟨fun program input t h => ?_, fun s t => stepIn_inQ, fun cmd s t r h => ?_,
    fun hl s t hs h => (stepIn_or_command_inv hl hs h).inQ⟩
  · rw [construct_next h]; rfl
  · cases (command_next h).2 <;> rfl

/-- Settles O38, as O37 for the output queue. -/
theorem outputQueueWriters : Obligations.OutputQueueWriters := by
  intro c
  refine ⟨fun program input t h => ?_, fun s t => stepIn_outQ, fun cmd s t r h => ?_,
    fun hl s t hs h => (stepIn_or_command_inv hl hs h).outQ⟩
  · rw [construct_next h]; rfl
  · cases (command_next h).2 with
    | drain => exact ⟨rfl, rfl⟩
    | _ => rfl

/-- Settles O39: of the instructions only ARB names a new base, and of the commands only RESET. -/
theorem onlyArbAndResetWriteTheBase : Obligations.OnlyArbAndResetWriteTheBase := by
  refine fun c => ⟨fun s t => stepIn_rb, fun cmd s t r h => ?_⟩
  cases (command_next h).2 with
  | reset =>
    cases hc : c.resetClearsRb
    · exact .inl (by simp [hc])
    · exact .inr ⟨rfl, rfl, by simp [hc]⟩
  | _ => exact .inl rfl

end Sys2Proof.Machine
end

section
/-!
PROOF. The status and error registers (R31, D14) as views of `fsm` and `err`.
-/

namespace Sys2Proof.Machine

theorem Fsm.code_lt (f : Fsm) : f.code < 8 := by cases f <;> decide

theorem errKindCode_lt (s : State) : errKindCode s < 16 := by
  unfold errKindCode
  split
  · decide
  · rename_i e _
    cases e.kind <;> decide

/-- STATUS as a number: its two codes fit the bits below bit 7, so nothing is cut off (R31). -/
theorem statusReg_toNat (s : State) : s.statusReg.toNat = s.fsm.code + 8 * errKindCode s := by
  have hf := s.fsm.code_lt
  have he := errKindCode_lt s
  rw [State.statusReg, BitVec.toNat_ofNat, Nat.mod_eq_of_lt (by omega)]

/-- Settles O51: by `statusReg_toNat` the two fields are the two codes, and STATUS is below 128. -/
theorem statusRegisterLayout : Obligations.StatusRegisterLayout := by
  intro s
  have hf := s.fsm.code_lt
  have he := errKindCode_lt s
  have hfsm : s.statusReg.toNat % 8 = s.fsm.code := by rw [statusReg_toNat]; omega
  have hkind : s.statusReg.toNat / 8 % 16 = errKindCode s := by rw [statusReg_toNat]; omega
  refine ⟨?_, ?_, ?_⟩
  · rw [hfsm]
    cases s.fsm <;> rfl
  · rw [hkind, errKindCode]
    cases s.err with
    | none => rfl
    | some e => cases hk : e.kind <;> simp [hk, ErrKind.code]
  · exact Nat.testBit_lt_two_pow (by rw [statusReg_toNat]; omega)

/-- Settles O52: each register's valid flag and value follow whether the record has the field. -/
theorem errorRegistersReadTheRecord : Obligations.ErrorRegistersReadTheRecord := by
  intro s e reading he
  refine ⟨by simp [State.errPcReg, he], ?_, fun w hw => ?_, ?_, fun k hk => ?_⟩
  · cases hw : e.errWord <;> simp [State.errWordReg, he, hw]
  · simp [State.errWordReg, he, hw]
  · cases hk : e.errParam <;> simp [State.errParamReg, he, hk]
  · have hlt : k.val < 4 := by omega
    simpa [State.errParamReg, he, hk] using hlt

end Sys2Proof.Machine
end

section
/-!
PROOF. Memory (20_memory.md): a stored word is read back by the next fetch and the next data read (R66, R237, R238),
and what a step does to `memLen` (R22, R54, R55), said once in `stepIn_memLen`.
-/

namespace Sys2Proof.Machine

/-! ## A stored word is read back -/

/-- A cell that can be fetched reads as data the same word (R50). -/
theorem valueOf_positional_of_fetch {c : Config} {s : State} {a v : Int} (h : fetch s.mem a = some v) :
    valueOf c s ⟨.positional, a⟩ = v := by
  obtain ⟨-, hlt, rfl⟩ := fetch_eq_some h
  simp [valueOf, addressOf, hlt]

/-- Instruction `i` stores `v` in the cell `d` names: its parameters raise nothing and its body writes that cell. -/
structure Stores (c : Config) (s : State) (i : Instr) (d : Param) (v : Int) : Prop where
  target : writeParam i = some d
  noError : firstError c s i = none
  body : ∃ p, bodyOf c s i = .done p ∧ p.write = some (targetOf c s d, v)

/-- Memory has grown past the target when the word is stored, so the word is fetched from there afterwards. -/
theorem Stores.execIn_fetch {c : Config} {s : State} {i : Instr} {d : Param} {v : Int} (h : Stores c s i d v)
    (hwf : s.mem.wf = true) :
    ∃ t, execIn c i s = .next t ∧ fetch t.mem (targetOf c s d : Int) = some v := by
  obtain ⟨p, hp, hw⟩ := h.body
  have hi : i ≠ .hlt := by rintro rfl; cases h.target
  have hlen := (bodyOf_completes hp).len
  refine ⟨commit s p, by rw [execIn_of_no_error hi h.noError, hp, conclude_done], ?_⟩
  have hgrown : (s.mem.setLen p.len).wf = true :=
    Memory.setLen_wf hwf (hlen ▸ (lenAfter_le_iff.1 le_rfl).1)
  have hlt : targetOf c s d < p.len := hlen ▸ targetOf_lt_lenAfter h.noError h.target
  rw [commit_mem, hw, Memory.applyWrite_some]
  exact fetch_set hgrown v hlt

/-- An F3RRW body writes its result to the cell its target names (R74). -/
theorem storeBody_writes {c : Config} {s : State} {f : Int → Int → Option Int} {a b d : Param} {r : Int}
    (hr : f (valueOf c s a) (valueOf c s b) = some r) :
    ∃ p, storeBody c s f a b d = .done p ∧ p.write = some (targetOf c s d, r) := by
  simp [storeBody, hr]

/-- IN with a word in the queue stores the front one (R140). -/
theorem inp_stores {c : Config} {s : State} {d : Param} {v : Int} (hd : writable c s d = true)
    (hq : s.inQ.head? = some v) : Stores c s (.inp d) d v := by
  obtain ⟨q, hq⟩ := List.head?_eq_some_iff.1 hq
  refine ⟨rfl, ?_, by simp [bodyOf, hq]⟩
  simp only [firstError, Instr.params, firstErrorFrom, paramError_write_none.2 hd]

/-- Settles O28: each of the five instructions stores the value named, by `Stores.execIn_fetch` the next fetch gives
it, and where a fetch succeeds a data read gives the same word. -/
theorem storedWordIsFetchedNext : Obligations.StoredWordIsFetchedNext := by
  intro s a b d hwf ha hb hd i v hi
  have hnone := firstErrorFrom_read_read_write_none ha hb hd
  have hstores : Stores Config.spec s i d v := by
    obtain ⟨rfl, rfl, hf⟩ | ⟨rfl, rfl, hf⟩ | ⟨rfl, rfl⟩ | ⟨rfl, rfl⟩ | ⟨rfl, hq⟩ := hi
    · exact ⟨rfl, hnone, storeBody_writes (f := fun x y => chk Config.spec (x + y)) (chk_of_fits hf)⟩
    · exact ⟨rfl, hnone, storeBody_writes (f := fun x y => chk Config.spec (x * y)) (chk_of_fits hf)⟩
    · exact ⟨rfl, hnone, storeBody_writes (f := fun x y => some (truthWord (decide (x < y)))) (by simp [truthWord])⟩
    · exact ⟨rfl, hnone, storeBody_writes (f := fun x y => some (truthWord (decide (x = y)))) (by simp [truthWord])⟩
    · exact inp_stores hd hq
  obtain ⟨t, ht, hfetch⟩ := hstores.execIn_fetch hwf
  exact ⟨t, exec_eq_execIn i s ▸ ht, hfetch, valueOf_positional_of_fetch hfetch⟩

/-! ## The length of memory after a step (R55, R68) -/

/-- An instruction leaves the status and the length its parameters ask for, or it stops the run and leaves the
length. -/
theorem execIn_memLen {c : Config} {i : Instr} {s t : State} (h : execIn c i s = .next t) :
    (t.fsm = s.fsm ∧ firstError c s i = none ∧ t.mem.len = lenAfter c s (i.params.map fun q => q.2)) ∨
      (t.fsm ≠ .running ∧ t.mem.len = s.mem.len) := by
  obtain ⟨p, he, hp, rfl⟩ | ⟨e, rfl⟩ | ⟨a, -, -, -, rfl⟩ | ⟨-, rfl⟩ := execIn_cases h
  · exact .inl ⟨rfl, he, by simp [(bodyOf_completes hp).len]⟩
  all_goals exact .inr ⟨nofun, rfl⟩

/-- A step goes on with the length its instruction's parameters ask for, or it stops the run and leaves the
length. -/
theorem stepIn_memLen {c : Config} {s t : State} (h : stepIn c s = .next t) :
    (∃ i, fetchInstr s = .ok i ∧ firstError c s i = none ∧ t.fsm = .running ∧
      t.mem.len = lenAfter c s (i.params.map fun q => q.2)) ∨ (t.fsm ≠ .running ∧ t.mem.len = s.mem.len) := by
  obtain ⟨hr, ⟨e, -, rfl⟩ | ⟨i, hf, hx⟩⟩ := stepIn_cases h
  · exact .inr ⟨nofun, rfl⟩
  · exact (execIn_memLen hx).imp_left fun ⟨hfsm, he, hlen⟩ => ⟨i, hf, he, hfsm.trans hr, hlen⟩

/-- Settles O30, by `stepIn_memLen`: the length asked for is at least the old one and at most `ADDR_LIMIT`. -/
theorem memoryGrowsToTheCellsUsed : Obligations.MemoryGrowsToTheCellsUsed := by
  intro c s t h
  obtain ⟨i, hf, he, hrun, hlen⟩ | ⟨hstop, hlen⟩ := stepIn_memLen h
  · rw [hlen]
    refine ⟨(lenAfter_le_iff.1 le_rfl).1, lenAfter_le_addrLimit he, fun hn => absurd hrun hn,
      fun j hj _ => ?_⟩
    cases hf.symm.trans hj
    rfl
  · exact ⟨hlen.ge, fun hl => hlen.trans_le hl, fun _ => hlen, fun _ _ hrun => absurd hrun hstop⟩

/-! ## Strict memory (R54) -/

/-- Under `strict` parameters without an error name only cells of memory. -/
theorem lenAfter_of_strict {c : Config} {s : State} {i : Instr} (hc : c.memPolicy = .strict)
    (he : firstError c s i = none) : lenAfter c s (i.params.map fun q => q.2) = s.mem.len := by
  refine le_antisymm (lenAfter_le_iff.2 ⟨le_rfl, fun p hp => ?_⟩) (lenAfter_le_iff.1 le_rfl).1
  obtain ⟨q, hq, rfl⟩ := List.mem_map.1 hp
  exact (reachOf_le (readable_of_firstErrorFrom_none he hq).1).resolve_right (by simp [hc])

theorem stepIn_memLen_of_strict {c : Config} {s t : State} (hc : c.memPolicy = .strict)
    (h : stepIn c s = .next t) : t.mem.len = s.mem.len := by
  obtain ⟨i, -, he, -, hlen⟩ | ⟨-, hlen⟩ := stepIn_memLen h
  · rw [hlen, lenAfter_of_strict hc he]
  · exact hlen

/-- No step changes the memory image (R37). -/
theorem stepIn_image0 {c : Config} {s t : State} (h : stepIn c s = .next t) : t.image0 = s.image0 := by
  obtain ⟨-, ⟨e, -, rfl⟩ | ⟨i, -, hx⟩⟩ := stepIn_cases h
  · rfl
  · exact execIn_image0 hx

/-- CONSTRUCT leaves `max(programLength, MEM_MIN)` cells, in memory and in the image (R230, R37). -/
theorem constructed_lenFixed (c : Config) (program input : List Int) :
    (constructed c program input).lenFixed (max program.length Config.memMin) := by
  refine ⟨rfl, fun m hm => ?_⟩
  rw [constructed_image0] at hm
  split at hm
  · cases hm; rfl
  · cases hm

/-- RESET restores the image, of the same length, or leaves memory (R232). -/
theorem resetState_lenFixed {c : Config} {s : State} {n : Nat} (h : s.lenFixed n) :
    (resetState c s).lenFixed n := by
  obtain ⟨hmem, himg⟩ := h
  refine ⟨?_, himg⟩
  rw [resetState_mem]
  split
  · cases hi : s.image0 with
    | none => exact hmem
    | some m => exact himg m hi
  · exact hmem

/-- No accepted command but RESET touches memory or its image. -/
theorem command_lenFixed {c : Config} {cmd : Command} {s t : State} {r : Response} {n : Nat}
    (hs : s.lenFixed n) (h : command c cmd s = .next (t, r)) : t.lenFixed n := by
  cases (command_next h).2 with
  | reset => exact resetState_lenFixed hs
  | _ => exact hs

/-- Under `strict` an address outside memory is out of range. -/
theorem inRange_of_strict_outside {c : Config} {s : State} {a : Int} (hc : c.memPolicy = .strict)
    (ha : a < 0 ∨ (s.mem.len : Int) ≤ a) : inRange c s a = false := by
  have hout : 0 ≤ a → (s.mem.len : Int) ≤ a := by omega
  simpa [inRange, hc] using hout

/-- A positional parameter out of range raises AddressOutOfRange, for either access (R204). -/
theorem paramError_positional_outOfRange {c : Config} {s : State} {a : Int} (acc : Access) (k : Fin 3)
    (ha : inRange c s a = false) :
    paramError c s acc k ⟨.positional, a⟩ = some ⟨.addressOutOfRange, some k⟩ := by
  simp [paramError, Mode.legalFor, addressOf, ha]

/-- Settles O29: a step asks for no cell beyond memory, commands leave memory or restore one of its length, and an
address outside memory is out of range. -/
theorem strictMemoryNeverGrows : Obligations.StrictMemoryNeverGrows := by
  intro c hc
  refine ⟨fun program input s h => ?_, fun n s t ⟨hmem, himg⟩ h => ?_, fun n cmd s t r => command_lenFixed,
    fun s pending k a ha => ?_⟩
  · exact construct_next h ▸ constructed_lenFixed c program input
  · exact ⟨(stepIn_memLen_of_strict hc h).trans hmem, stepIn_image0 h ▸ himg⟩
  · have hout := inRange_of_strict_outside hc ha
    exact ⟨resolveRead_error pending (paramError_positional_outOfRange .read k hout),
      resolveWrite_error pending (paramError_positional_outOfRange .write k hout)⟩

end Sys2Proof.Machine
end

section
/-!
PROOF. The encoding (30_encoding.md R70 to R87): an opcode word decodes to a header exactly when its low digits are
the header's code and mode digits, and behind it the decoder takes exactly the literals. From this follow the round
trip, the illegal words and what a step does on one.
-/

namespace Sys2Proof

/-! ## The opcode word (R71, R83) -/

/-- What the decoder answers for the opcode word of an instruction (R83, R84). -/
def Instr.header (i : Instr) : Header where
  op := i.opcode
  modes := i.params.map fun q => q.2.mode

/-- The modes the first `n` mode digits of `w` stand for (R71, R77). -/
def wordModes (w n : Nat) : List Mode := (List.range n).map fun k => Mode.ofDigit (modeDigit w k)

theorem Opcode.ofCode_eq_some {n : Nat} {op : Opcode} : Opcode.ofCode n = some op ↔ op.code = n :=
  ⟨Opcode.code_of_ofCode, fun h => h ▸ Opcode.ofCode_code op⟩

/-- The numbers of two decimal digits that select no operation (R75). -/
theorem Opcode.ofCode_eq_none : ∀ n < 100, Opcode.ofCode n = none ↔ n = 0 ∨ (10 ≤ n ∧ n ≤ 98) := by
  decide

/-- A word that is not negative decodes by its low two digits alone, its modes being the digits above. -/
theorem decodeWord_natCast (w : Nat) :
    decodeWord w = (Opcode.ofCode (w % 100)).map fun op => ⟨op, wordModes w op.format.length⟩ := by
  rw [decodeWord, if_neg (by omega), Int.toNat_natCast]
  cases Opcode.ofCode (w % 100) <;> rfl

theorem decodeWord_of_neg {w : Int} (h : w < 0) : decodeWord w = none := if_pos h

/-! ## Mode digits as a number -/

theorem modeDigit_eq (w k : Nat) : modeDigit w k = w / 100 / 10 ^ k % 10 := by
  have hp : 10 ^ (k + 2) = 100 * 10 ^ k := by ring
  rw [modeDigit, decimalDigit, hp, Nat.div_div_eq_div_mul]

/-- The modes of the `n` lowest digits of `m`, read as a number again, are those digits. -/
theorem modesNumber_digits (m n : Nat) :
    modesNumber ((List.range n).map fun k => Mode.ofDigit (m / 10 ^ k % 10)) = m % 10 ^ n := by
  induction n generalizing m with
  | zero => simp [modesNumber, Nat.mod_one]
  | succ n ih =>
    have hrest := ih (m / 10)
    simp only [Nat.div_div_eq_div_mul, ← pow_succ'] at hrest
    simp only [List.range_succ_eq_map, List.map_cons, List.map_map, Function.comp_def, modesNumber, hrest,
      Mode.digit_ofDigit (Nat.mod_lt _ (by decide : 0 < 10)), pow_zero, Nat.div_one]
    rw [pow_succ', Nat.mod_mul]

theorem modesNumber_wordModes (w n : Nat) : modesNumber (wordModes w n) = w / 100 % 10 ^ n := by
  simp only [wordModes, modeDigit_eq, modesNumber_digits]

/-- Lists of modes of one length are told apart by their numbers. -/
theorem modesNumber_inj {ms ns : List Mode} (hl : ms.length = ns.length) (h : modesNumber ms = modesNumber ns) :
    ms = ns := by
  induction ms generalizing ns with
  | nil => exact (List.length_eq_zero_iff.1 hl.symm).symm
  | cons m ms ih =>
    cases ns with
    | nil => cases hl
    | cons n ns =>
      have hm := m.digit_lt
      have hn := n.digit_lt
      simp only [modesNumber] at h
      have hdigit : m.digit = n.digit := by omega
      rw [← Mode.ofDigit_digit m, hdigit, Mode.ofDigit_digit, ih (by simpa using hl) (by omega)]

theorem modesNumber_lt (ms : List Mode) : modesNumber ms < 10 ^ ms.length := by
  induction ms with
  | nil => decide
  | cons m ms ih =>
    have hm := m.digit_lt
    simp only [modesNumber, List.length_cons, pow_succ']
    omega

/-! ## The opcode words of an instruction (R76, R84) -/

theorem opcodeWord_eq (i : Instr) : opcodeWord i = i.opcode.code + 100 * modesNumber i.header.modes := rfl

theorem Instr.length_header_modes (i : Instr) : i.header.modes.length = i.params.length := by
  simp [Instr.header]

theorem Instr.length_format (i : Instr) : i.opcode.format.length = i.params.length := by
  simp [Instr.format_opcode]

/-- The digits an instruction uses are the two of its code and one per parameter (R71). -/
theorem ten_pow_width_succ (i : Instr) : 10 ^ (i.width + 1) = 100 * 10 ^ i.params.length := by
  rw [Instr.width]; ring

/-- The canonical word has no digit above the last mode digit. -/
theorem opcodeWord_lt (i : Instr) : opcodeWord i < 10 ^ (i.width + 1) := by
  have hc := i.opcode.code_lt
  have hm := i.length_header_modes ▸ modesNumber_lt i.header.modes
  rw [ten_pow_width_succ, opcodeWord_eq]
  omega

/-- A word that is not negative decodes to the header of an instruction exactly when its low two digits are the code
and its mode digits the modes. -/
theorem decodeWord_natCast_eq_header_iff {w : Nat} {i : Instr} :
    decodeWord w = some i.header ↔ i.opcode.code = w % 100 ∧ wordModes w i.params.length = i.header.modes := by
  simp only [decodeWord_natCast, Option.map_eq_some_iff, Opcode.ofCode_eq_some]
  constructor
  · rintro ⟨op, hop, hh⟩
    obtain rfl : op = i.opcode := congrArg Header.op hh
    exact ⟨hop, i.length_format ▸ congrArg Header.modes hh⟩
  · rintro ⟨hop, hms⟩
    exact ⟨i.opcode, hop, by rw [i.length_format, hms]; rfl⟩

/-- A word decodes to the header of an instruction exactly when its used digits are those of the canonical word. -/
theorem decodeWord_eq_header_iff {w : Int} {i : Instr} :
    decodeWord w = some i.header ↔ 0 ≤ w ∧ w % 10 ^ (i.width + 1) = (opcodeWord i : Int) := by
  rcases lt_or_ge w 0 with hneg | h0
  · simp [decodeWord_of_neg hneg, hneg.not_ge]
  obtain ⟨w, rfl⟩ := Int.eq_ofNat_of_zero_le h0
  have hmodes : wordModes w i.params.length = i.header.modes ↔
      w / 100 % 10 ^ i.params.length = modesNumber i.header.modes := by
    rw [← modesNumber_wordModes]
    exact ⟨congrArg modesNumber, modesNumber_inj (by simp [wordModes, i.length_header_modes])⟩
  have hsplit : w % 10 ^ (i.width + 1) = w % 100 + 100 * (w / 100 % 10 ^ i.params.length) := by
    rw [← Nat.mod_mul, ten_pow_width_succ]
  have hcast : (w : Int) % 10 ^ (i.width + 1) = opcodeWord i ↔ w % 10 ^ (i.width + 1) = opcodeWord i := by
    norm_cast
  have hc := i.opcode.code_lt
  rw [decodeWord_natCast_eq_header_iff, hmodes, hcast, hsplit, opcodeWord_eq]
  omega

/-! ## The literals (R81, R105) -/

theorem paramAt_mode {h : Header} {lits : List Int} {k : Fin 3} {p : Param} (hp : paramAt h lits k = .ok p) :
    p.mode = h.modes.getD k.val .positional := by
  unfold paramAt at hp
  split at hp <;> cases hp
  rfl

/-- The literals of an instruction, behind its header, are its cells. -/
theorem decodeParams_header (i : Instr) : decodeParams i.header (i.params.map fun q => q.2.lit) = .ok i := by
  cases i <;> rfl

/-- Behind a header with one mode per parameter exactly the cells of one instruction decode: the header is its own
and the first cells are its literals. -/
theorem decodeParams_eq_ok_iff {h : Header} {lits : List Int} {i : Instr}
    (hlen : h.modes.length = h.op.format.length) :
    decodeParams h lits = .ok i ↔
      h = i.header ∧ lits.take i.params.length = i.params.map fun q => q.2.lit := by
  constructor
  · intro hd
    obtain ⟨hop, hk⟩ := decodeParams_ok hd
    have hn : h.modes.length = i.params.length := by rw [hlen, ← hop, i.length_format]
    have hmodes : h.modes = i.header.modes := by
      refine List.ext_getElem (hn.trans i.length_header_modes.symm) fun k hk1 hk2 => ?_
      obtain ⟨j, rfl, hj⟩ := hk k (hn ▸ hk1)
      simpa [Instr.header, hk1] using (paramAt_mode hj).symm
    constructor
    · change Header.mk h.op h.modes = i.header
      rw [← hop, hmodes]
      rfl
    · refine List.ext_getElem? fun k => ?_
      rcases lt_or_ge k i.params.length with hlt | hge
      · obtain ⟨j, rfl, hj⟩ := hk k hlt
        simp [hlt, (paramAt_ok hj).2]
      · simp [hge]
  · rintro ⟨rfl, htake⟩
    rw [← List.take_append_drop i.params.length lits, htake]
    exact decodeParams_append _ (decodeParams_header i)

/-- Every decoded header has one mode per parameter of its operation (R83). -/
theorem decodeWord_modes_length {w : Int} {h : Header} (hw : decodeWord w = some h) :
    h.modes.length = h.op.format.length := by
  rcases lt_or_ge w 0 with hneg | h0
  · rw [decodeWord_of_neg hneg] at hw; cases hw
  obtain ⟨w, rfl⟩ := Int.eq_ofNat_of_zero_le h0
  obtain ⟨op, -, rfl⟩ := Option.map_eq_some_iff.1 (decodeWord_natCast w ▸ hw)
  simp [wordModes]

/-! ## Cells and instructions (R84) -/

/-- Cells decode to an instruction exactly when the word decodes to its header and its literals follow. -/
theorem decode_eq_ok_iff {w : Int} {lits : List Int} {i : Instr} :
    decode (w :: lits) = .ok i ↔
      decodeWord w = some i.header ∧ lits.take i.params.length = i.params.map fun q => q.2.lit := by
  cases hw : decodeWord w with
  | none => simp [decode, hw]
  | some h => simp only [decode, hw, decodeParams_eq_ok_iff (decodeWord_modes_length hw), Option.some.injEq]

/-- Settles O2: the word must decode to the header of `i`, which its used digits decide, and the literals follow. -/
theorem decodeReadsTheUsedDigits : Obligations.DecodeReadsTheUsedDigits := by
  intro w lits i
  rw [decode_eq_ok_iff, decodeWord_eq_header_iff, and_assoc]

/-- Settles O1: the canonical word is its own used digits (O2), and the literals stand right behind it. -/
theorem decodeEncodeRoundTrip : Obligations.DecodeEncodeRoundTrip := by
  intro i rest
  refine (decodeReadsTheUsedDigits _ _ i).2 ⟨by omega, ?_, by simp⟩
  exact_mod_cast Nat.mod_eq_of_lt (opcodeWord_lt i)

/-- Settles O4: each list of cells is evaluated. -/
theorem wordsOfTheSpecDecode : Obligations.WordsOfTheSpecDecode :=
  ⟨rfl, rfl, rfl, rfl, rfl, rfl, rfl, rfl, rfl, rfl, rfl⟩

/-! ## Cells are Words (R7, R84) -/

/-- A mode that is legal for some access has the digit 0, 1 or 2 (R77). -/
theorem Mode.digit_le_two {m : Mode} {acc : Access} (h : m.legalFor acc = true) : m.digit ≤ 2 := by
  cases m with
  | illegal e => cases h
  | _ => decide

/-- Digits of at most 2 make a number of at most 22…2. -/
theorem modesNumber_le {ms : List Mode} (h : ∀ m ∈ ms, m.digit ≤ 2) :
    9 * modesNumber ms + 2 ≤ 2 * 10 ^ ms.length := by
  induction ms with
  | nil => decide
  | cons m ms ih =>
    have hm := h m List.mem_cons_self
    have hms := ih fun n hn => h n (List.mem_cons_of_mem m hn)
    simp only [modesNumber, List.length_cons, pow_succ']
    omega

theorem Instr.wellFormed_param {c : Config} {i : Instr} (h : i.wellFormed c = true) {q : Access × Param}
    (hq : q ∈ i.params) : q.2.mode.legalFor q.1 = true ∧ c.fits q.2.lit = true :=
  Bool.and_eq_true_iff.1 (List.all_eq_true.1 h q hq)

theorem Instr.params_length_le (i : Instr) : i.params.length ≤ 3 := by
  cases i <;> simp [Instr.params]

/-- The canonical word of a well-formed instruction has legal mode digits only. -/
theorem opcodeWord_le {c : Config} {i : Instr} (h : i.wellFormed c = true) : opcodeWord i ≤ 22299 := by
  have hdigits : ∀ m ∈ i.header.modes, m.digit ≤ 2 := by
    intro m hm
    obtain ⟨q, hq, rfl⟩ := List.mem_map.1 hm
    exact Mode.digit_le_two (Instr.wellFormed_param h hq).1
  have hn := modesNumber_le hdigits
  have hp : 10 ^ i.header.modes.length ≤ 10 ^ 3 :=
    Nat.pow_le_pow_right (by decide) (i.length_header_modes ▸ i.params_length_le)
  have hc := i.opcode.code_lt
  rw [opcodeWord_eq]
  omega

/-- Settles O5: the opcode word is at most 22299, which every width of 16 bits holds, and the literals are Words by
the definition of well-formed. -/
theorem cellsOfWellFormedInstructionsAreWords : Obligations.CellsOfWellFormedInstructionsAreWords := by
  intro c i hl hi v hv
  rcases List.mem_cons.1 hv with rfl | hv
  · have := opcodeWord_le hi
    exact Machine.small_fits hl (by omega) (by omega)
  · obtain ⟨q, hq, rfl⟩ := List.mem_map.1 hv
    exact (Instr.wellFormed_param hi hq).2

/-! ## Illegal words (R72, R75) -/

theorem decodeOne_error {f : Param → Instr} {h : Header} {lits : List Int} {e : DecodeError}
    (hd : decodeOne f h lits = .error e) : ∃ k, paramAt h lits k = .error e := by
  unfold decodeOne at hd
  split at hd
  · cases hd; exact ⟨0, by assumption⟩
  · cases hd

theorem decodeTwo_error {f : Param → Param → Instr} {h : Header} {lits : List Int} {e : DecodeError}
    (hd : decodeTwo f h lits = .error e) : ∃ k, paramAt h lits k = .error e := by
  unfold decodeTwo at hd
  split at hd
  · cases hd; exact ⟨0, by assumption⟩
  · split at hd
    · cases hd; exact ⟨1, by assumption⟩
    · cases hd

theorem decodeThree_error {f : Param → Param → Param → Instr} {h : Header} {lits : List Int} {e : DecodeError}
    (hd : decodeThree f h lits = .error e) : ∃ k, paramAt h lits k = .error e := by
  unfold decodeThree at hd
  split at hd
  · cases hd; exact ⟨0, by assumption⟩
  · split at hd
    · cases hd; exact ⟨1, by assumption⟩
    · split at hd
      · cases hd; exact ⟨2, by assumption⟩
      · cases hd

/-- Behind a legal word the only error is that of a missing parameter cell (R105). -/
theorem decodeParams_error {h : Header} {lits : List Int} {e : DecodeError} (hd : decodeParams h lits = .error e) :
    ∃ k, e = .missingParam k := by
  have hparam : ∃ k, paramAt h lits k = .error e := by
    unfold decodeParams at hd
    split at hd
    case h_1 | h_2 | h_7 | h_8 => exact decodeThree_error hd
    case h_3 | h_4 | h_9 => exact decodeOne_error hd
    case h_5 | h_6 => exact decodeTwo_error hd
    case h_10 => cases hd
  obtain ⟨k, hk⟩ := hparam
  unfold paramAt at hk
  split at hk <;> cases hk
  exact ⟨k, rfl⟩

theorem decode_eq_invalidOpcode_iff {w : Int} {lits : List Int} :
    decode (w :: lits) = .error .invalidOpcode ↔ decodeWord w = none := by
  cases hw : decodeWord w with
  | none => simp [decode, hw]
  | some h =>
    simp only [decode, hw, reduceCtorEq, iff_false]
    intro hd
    obtain ⟨k, hk⟩ := decodeParams_error hd
    cases hk

/-- The words that decode to no header (R72, R75, D7). -/
theorem decodeWord_eq_none_iff {w : Int} :
    decodeWord w = none ↔ w < 0 ∨ w % 100 = 0 ∨ (10 ≤ w % 100 ∧ w % 100 ≤ 98) := by
  rcases lt_or_ge w 0 with hneg | h0
  · simp [decodeWord_of_neg hneg, hneg]
  obtain ⟨w, rfl⟩ := Int.eq_ofNat_of_zero_le h0
  rw [decodeWord_natCast, Option.map_eq_none_iff, Opcode.ofCode_eq_none _ (Nat.mod_lt w (by decide))]
  omega

end Sys2Proof

namespace Sys2Proof.Machine

theorem fetch_of_lt {m : Memory} {a : Int} (h0 : 0 ≤ a) (hl : a < m.len) : fetch m a = some (m.get a.toNat) :=
  if_neg (by omega)

/-- Settles O3: the illegal words are those `decodeWord` refuses, and the window a step fetches begins with the
word at `pc`. -/
theorem illegalOpcodesRaiseInvalidOpcode : Obligations.IllegalOpcodesRaiseInvalidOpcode := by
  refine ⟨fun w lits => decode_eq_invalidOpcode_iff.trans decodeWord_eq_none_iff, fun s w hr h0 hl hw hbad => ?_⟩
  have hfetch : fetch s.mem s.pc = some w := hw ▸ fetch_of_lt h0 hl
  have hinstr : fetchInstr s = .error ⟨.invalidOpcode, none⟩ := by
    simp only [fetchInstr, maxWidth, fetchWindow, hfetch,
      decode_eq_invalidOpcode_iff.2 (decodeWord_eq_none_iff.2 hbad), trapOfDecode]
  rw [step_eq_stepIn, stepIn_error hr hinstr, raiseError, errRecord, hfetch]

end Sys2Proof.Machine
end

section
/-!
PROOF. The model's own loading of a word (log 5, log 7): the cells placed are the cells the next step fetches.
-/

namespace Sys2Proof.Machine

/-- The window at which words were placed begins with those words. -/
theorem fetchWindow_place {m : Memory} (h : m.wf = true) (a n : Nat) (ws : List Int) (hne : ws ≠ [])
    (hn : ws.length ≤ n) : ∃ rest, fetchWindow (m.place a ws) a n = ws ++ rest := by
  have hpos := List.length_pos_iff.2 hne
  have hlast := (Memory.place_get ws a (ws.length - 1) h (by omega)).2
  obtain ⟨rest, hrest⟩ := fetchWindow_eq (m.place a ws) ws.length n a (by omega) hn (by omega)
  refine ⟨rest, hrest.trans (congrArg (· ++ rest) ?_)⟩
  refine List.ext_getElem (by simp) fun k _ hk => ?_
  simpa using (Memory.place_get ws a k h hk).1

theorem decodeTableWord_eq_some {nbits w : Nat} {i : Instr} (h : decodeTableWord nbits w = some i) :
    decode (cellsOfBits w maxWidth) = .ok i := by
  unfold decodeTableWord at h
  split at h <;> cases h
  assumption

/-- Settles O7: the placed cells begin the window the step fetches, so it decodes to the word's instruction. -/
theorem fetchWordIsTheNextInstruction : Obligations.FetchWordIsTheNextInstruction := by
  intro s nbits w i hwf hd
  have hpc : max s.pc 0 = (s.pc.toNat : Int) := by omega
  obtain ⟨rest, hrest⟩ := fetchWindow_place hwf s.pc.toNat maxWidth (cellsOfBits w maxWidth) nofun (by simp)
  have hfetch : fetchInstr (placeFetchWord s w) = .ok i := by
    simp only [fetchInstr, placeFetchWord_mem, placeFetchWord_pc, hpc, hrest,
      decode_append rest (decodeTableWord_eq_some hd)]
  rw [State.withFetchWord, step_eq_stepIn, exec_eq_execIn]
  exact stepIn_running rfl hfetch

end Sys2Proof.Machine
end

section
/-!
PROOF. Relative parameters (R80, D2): each resolves as the positional parameter at the address the overflow check
answers for the base plus the literal.
-/

namespace Sys2Proof.Machine

section
variable {c : Config} {s : State} {lit : Int} (pending : Nat) (k : Fin 3)

/-- Where the relative sum overflows, the parameter names no cell and raises (R80). -/
theorem relative_of_chk_none (h : chk c (s.rb + lit) = none) :
    addressOf c s ⟨.relative, lit⟩ = none ∧
      resolveRead c s pending k ⟨.relative, lit⟩ = .error ⟨.arithmeticOverflow, some k⟩ ∧
      resolveWrite c s pending k ⟨.relative, lit⟩ = .error ⟨.arithmeticOverflow, some k⟩ := by
  simp [addressOf, resolveRead, resolveWrite, relativeAddress, h]

/-- Else it names the address the overflow check answers, and resolves as a positional parameter there (R80). -/
theorem relative_of_chk_some {a : Int} (h : chk c (s.rb + lit) = some a) :
    addressOf c s ⟨.relative, lit⟩ = some a ∧
      resolveRead c s pending k ⟨.relative, lit⟩ = resolveRead c s pending k ⟨.positional, a⟩ ∧
      resolveWrite c s pending k ⟨.relative, lit⟩ = resolveWrite c s pending k ⟨.positional, a⟩ := by
  simp [addressOf, resolveRead, resolveWrite, relativeAddress, h]

end

theorem inRange_of_neg {c : Config} {s : State} {a : Int} (h : a < 0) : inRange c s a = false := by
  simp [inRange, h.not_ge]

/-- Settles O26: the four cases are those of the overflow check, and a negative address is out of range. -/
theorem relativeParametersAddTheBase : Obligations.RelativeParametersAddTheBase := by
  intro c s pending k lit
  refine ⟨fun hf hp => relative_of_chk_none pending k (chk_fault hf hp), fun bits _ hp hl hw => ?_,
    fun hf hneg => ?_, fun hf => relative_of_chk_some pending k (chk_of_fits hf)⟩
  · obtain ⟨a, ha, hfit, hdvd⟩ := chk_wrap_congruent hl hw hp (s.rb + lit)
    exact ⟨a, hfit, hdvd, relative_of_chk_some pending k ha⟩
  · obtain ⟨-, hread, hwrite⟩ := relative_of_chk_some pending k (chk_of_fits hf)
    rw [hread, hwrite]
    exact ⟨resolveRead_error pending (paramError_positional_outOfRange .read k (inRange_of_neg hneg)),
      resolveWrite_error pending (paramError_positional_outOfRange .write k (inRange_of_neg hneg))⟩

end Sys2Proof.Machine
end

section
/-!
PROOF. The pseudo-instructions (R88, R89, D22): the cells they assemble to, and what their expansions do with an
immediate operand in the fixed place.
-/

namespace Sys2Proof

@[simp] theorem AsmOperand.resolve_imm_num (prog : List AsmLine) (n : Int) :
    (AsmOperand.imm (.num n)).resolve prog = some ⟨.immediate, n⟩ := rfl

/-- A line that expands to an instruction whose operands resolve emits that instruction's cells (R84, R88). -/
theorem AsmLine.cells_of_expand {prog : List AsmLine} {l : AsmLine} {op : Opcode} {operands : List AsmOperand}
    {ps : List Param} {i : Instr} (hl : l.expand = .instr op operands)
    (hps : (operands.mapM fun o => o.resolve prog) = some ps) (hi : instrOf op ps = some i) :
    l.cells prog = some (encode i) := by
  simp only [AsmLine.cells, hl, hps, hi, Option.map_some]

end Sys2Proof

namespace Sys2Proof.Machine

/-! ## Immediate operands (R77, R78) -/

theorem readable_immediate (c : Config) (s : State) (v : Int) : readable c s ⟨.immediate, v⟩ = true := rfl

@[simp] theorem valueOf_immediate (c : Config) (s : State) (v : Int) : valueOf c s ⟨.immediate, v⟩ = v := rfl

@[simp] theorem reachOf_immediate (c : Config) (s : State) (v : Int) : reachOf c s ⟨.immediate, v⟩ = 0 := rfl

theorem firstErrorFrom_read_read_none {c : Config} {s : State} {a b : Param} (ha : readable c s a = true)
    (hb : readable c s b = true) : firstErrorFrom c s 0 [(.read, a), (.read, b)] = none := by
  simp only [firstErrorFrom, paramError_read_none.2 ha, paramError_read_none.2 hb]

/-! ## The three effects (R89) -/

/-- JT #1 always jumps. -/
theorem execIn_jt_one {c : Config} {s : State} {p : Param} (hp : readable c s p = true) :
    execIn c (.jt ⟨.immediate, 1⟩ p) s = .next { s with
      mem := s.mem.setLen (lenAfter c s [p])
      pc := valueOf c s p } := by
  rw [execIn_of_no_error (i := .jt ⟨.immediate, 1⟩ p) nofun
    (firstErrorFrom_read_read_none (readable_immediate c s 1) hp)]
  simp [bodyOf, jumpBody, condTrue, commit, Pending.advance, lenAfter]

/-- ADD with #0 copies a Word. -/
theorem execIn_add_zero {c : Config} {s : State} {p d : Param} (hp : readable c s p = true)
    (hd : writable c s d = true) (hf : c.fits (valueOf c s p) = true) :
    execIn c (.add p ⟨.immediate, 0⟩ d) s = .next (stored c s [p, d] d (valueOf c s p) 4) := by
  rw [execIn_add_of_chk hp (readable_immediate c s 0) hd (r := valueOf c s p) (by simp [chk_of_fits hf])]
  simp [stored, lenAfter]

/-- ARB #0 only advances. -/
theorem execIn_arb_zero {c : Config} {s : State} (hf : c.fits s.rb = true) :
    execIn c (.arb ⟨.immediate, 0⟩) s = .next { s with pc := s.pc + 2 } := by
  rw [execIn_arb_of_chk (readable_immediate c s 0) (r := s.rb) (by simp [chk_of_fits hf])]
  simp [lenAfter, Memory.setLen]

/-- Settles O41: the cells by assembling each expansion, the effects by the lemmas above at this spec's
parameters. -/
theorem pseudoInstructionsDoWhatTheyName : Obligations.PseudoInstructionsDoWhatTheyName := by
  refine ⟨fun prog t x d pt px pd ht hx hd => ⟨?_, ?_, rfl, rfl⟩, fun s p d hp => ?_⟩
  · exact AsmLine.cells_of_expand (op := .jt) (ps := [⟨.immediate, 1⟩, pt]) rfl (by simp [ht]) rfl
  · exact AsmLine.cells_of_expand (op := .add) (ps := [px, ⟨.immediate, 0⟩, pd]) rfl (by simp [hx, hd]) rfl
  · simp only [exec_eq_execIn]
    exact ⟨execIn_jt_one hp, execIn_add_zero hp, execIn_arb_zero⟩

end Sys2Proof.Machine
end

section
/-!
PROOF. The fetch (40_engine.md R102 to R105): what a step does where the cells at `pc` hold an instruction, and which
overrun it raises where the opcode cell or a parameter cell lies past the end of memory.
-/

namespace Sys2Proof

/-! ## The first missing parameter cell (R105) -/

section
variable {h : Header} {lits : List Int} {k : Fin 3} (hl : lits.length = k.val)
include hl

theorem decodeOne_missing (f : Param → Instr) (hk : k.val < 1) : decodeOne f h lits = .error (.missingParam k) :=
  match k, lits, hl, hk with
  | 0, [], _, _ => rfl

theorem decodeTwo_missing (f : Param → Param → Instr) (hk : k.val < 2) :
    decodeTwo f h lits = .error (.missingParam k) :=
  match k, lits, hl, hk with
  | 0, [], _, _ => rfl
  | 1, [_], _, _ => rfl

theorem decodeThree_missing (f : Param → Param → Param → Instr) :
    decodeThree f h lits = .error (.missingParam k) :=
  match k, lits, hl with
  | 0, [], _ => rfl
  | 1, [_], _ => rfl
  | 2, [_, _], _ => rfl

/-- Where only the literals before parameter `k` are there, `k` is the parameter reported as missing. -/
theorem decodeParams_missing (hk : k.val < h.op.format.length) :
    decodeParams h lits = .error (.missingParam k) := by
  unfold decodeParams
  split
  case h_1 | h_2 | h_7 | h_8 => exact decodeThree_missing hl _
  case h_3 ho | h_4 ho | h_9 ho => exact decodeOne_missing hl _ (by rwa [ho] at hk)
  case h_5 ho | h_6 ho => exact decodeTwo_missing hl _ (by rwa [ho] at hk)
  case h_10 ho => rw [ho] at hk; exact absurd hk (Nat.not_lt_zero _)

end

end Sys2Proof

namespace Sys2Proof.Machine

/-! ## The cells at the end of memory (R56) -/

theorem fetch_outside {m : Memory} {a : Int} (h : a < 0 ∨ (m.len : Int) ≤ a) : fetch m a = none := if_pos h

/-- A window that is wide enough reaches exactly to the end of memory. -/
theorem fetchWindow_length_of_end {m : Memory} {a : Int} {k n : Nat} (h0 : 0 ≤ a) (hk : k ≤ n)
    (hl : a + k = m.len) : (fetchWindow m a n).length = k := by
  obtain ⟨rest, hr⟩ := fetchWindow_eq m k n a h0 hk hl.le
  have hge : k ≤ (fetchWindow m a n).length := by simp [hr]
  by_cases hn : fetchWindow m a n = []
  · rw [hn] at hge ⊢
    exact (Nat.le_zero.1 hge).symm
  · have hle := ((fetchWindow_cells m n a).2 hn).2
    omega

/-! ## The step -/

/-- A step that fetches no instruction only records the error (R103 to R105, D11). -/
theorem step_of_fetch_error {s : State} {e : Trap} (hr : s.fsm = .running) (hf : fetchInstr s = .error e) :
    step s = .next { s with
      fsm := .errored
      err := some { kind := e.kind, errPc := s.pc, errWord := fetch s.mem s.pc, errParam := e.param } } := by
  rw [step_eq_stepIn, stepIn_error hr hf]
  rfl

/-- Settles O6: cells that lie in memory at `pc` and decode to `i` are fetched as `i`. -/
theorem stepRunsTheDecodedInstruction : Obligations.StepRunsTheDecodedInstruction := by
  intro s i hr h0 hl hd
  rw [step_eq_stepIn, exec_eq_execIn]
  exact stepIn_running hr (fetchInstr_of_cells h0 hl hd)

/-- Settles O9: outside memory the opcode fetch fails, so there is no opcode cell and no word to record. -/
theorem fetchOutsideMemoryOverruns : Obligations.FetchOutsideMemoryOverruns := by
  intro s hr hout
  have hfetch := fetch_outside hout
  have hinstr : fetchInstr s = .error ⟨.programCounterOverrun, none⟩ := by
    simp only [fetchInstr, maxWidth, fetchWindow, hfetch, decode, trapOfDecode]
  rw [step_of_fetch_error hr hinstr, hfetch]

/-- Settles O10: the fetched window is the opcode word and the `k` literals up to the end of memory, so `k` is the
first parameter the decoder misses. -/
theorem missingParameterCellOverruns : Obligations.MissingParameterCellOverruns := by
  intro s w h k hr h0 hw hd hk hend
  have hfetch : fetch s.mem s.pc = some w := hw ▸ fetch_of_lt h0 (by omega)
  have hlits : (fetchWindow s.mem (s.pc + 1) 3).length = k.val :=
    fetchWindow_length_of_end (by omega) (by omega) hend
  have hmissing : decodeParams h (fetchWindow s.mem (s.pc + 1) 3) = .error (.missingParam k) :=
    decodeParams_missing hlits (decodeWord_modes_length hd ▸ hk)
  have hinstr : fetchInstr s = .error ⟨.programCounterOverrun, some k⟩ := by
    rw [fetchInstr, maxWidth, fetchWindow, hfetch]
    simp only [decode, hd, hmissing, trapOfDecode]
  rw [step_of_fetch_error hr hinstr, hfetch]

end Sys2Proof.Machine
end

section
/-!
PROOF. The state machine and the program counter (40_engine.md R106, R109, R110, R114): how a step can end is said
once, in `stepIn_ends`, and the transitions and the advance of `pc` are read off it.
-/

namespace Sys2Proof.Machine

/-! ## Blocking (R110) -/

/-- IN with a usable target and an empty queue blocks. -/
theorem execIn_inp_of_empty {c : Config} {s : State} {a : Param} (ha : writable c s a = true) (hq : s.inQ = []) :
    execIn c (.inp a) s = .next (block s) := by
  have he : firstError c s (.inp a) = none := by
    simp only [firstError, Instr.params, firstErrorFrom, paramError_write_none.2 ha]
  rw [execIn_of_no_error (i := .inp a) nofun he]
  simp only [bodyOf, hq, conclude_block]

/-- Settles O17: the step blocks, and a run that ends Blocked answers `ok`. -/
theorem inputOnAnEmptyQueueBlocks : Obligations.InputOnAnEmptyQueueBlocks := by
  intro s a ha hq
  exact ⟨exec_eq_execIn (.inp a) s ▸ execIn_inp_of_empty ha hq, rfl⟩

/-! ## How a step ends (R102, R109) -/

/-- A step goes on, with `pc` behind the instruction or at the target of a taken jump; or it raises; or it is an IN
that blocks; or it is HLT. -/
theorem stepIn_ends {c : Config} {s t : State} (h : stepIn c s = .next t) :
    (∃ i, fetchInstr s = .ok i ∧ t.fsm = .running ∧ t.pc = (jumpTarget c s i).getD (s.pc + i.width)) ∨
    (∃ e, t = raiseError s e) ∨
    (∃ a, fetchInstr s = .ok (.inp a) ∧ writable c s a = true ∧ s.inQ = [] ∧ t = block s) ∨
    (fetchInstr s = .ok .hlt ∧ t = haltState s) := by
  obtain ⟨hr, ⟨e, -, rfl⟩ | ⟨i, hf, hx⟩⟩ := stepIn_cases h
  · exact .inr (.inl ⟨e, rfl⟩)
  · obtain ⟨p, -, hp, rfl⟩ | ⟨e, rfl⟩ | ⟨a, rfl, he, hq, rfl⟩ | ⟨rfl, rfl⟩ := execIn_cases hx
    · exact .inl ⟨i, hf, hr, (bodyOf_completes hp).pc⟩
    · exact .inr (.inl ⟨e, rfl⟩)
    · exact .inr (.inr (.inl ⟨a, hf, writable_of_firstError_none he rfl, hq, rfl⟩))
    · exact .inr (.inr (.inr ⟨hf, rfl⟩))

section
variable {c : Config} {s t : State} (h : stepIn c s = .next t)
include h

theorem stepIn_fsm_ne_ready : t.fsm ≠ .ready := by
  obtain ⟨i, -, hrun, -⟩ | ⟨e, rfl⟩ | ⟨a, -, -, -, rfl⟩ | ⟨-, rfl⟩ := stepIn_ends h
  · simp [hrun]
  all_goals nofun

theorem stepIn_blocked_iff :
    t.fsm = .blocked ↔ ∃ a, fetchInstr s = .ok (.inp a) ∧ writable c s a = true ∧ s.inQ = [] := by
  constructor
  · intro hb
    obtain ⟨i, -, hrun, -⟩ | ⟨e, rfl⟩ | ⟨a, hf, ha, hq, -⟩ | ⟨-, rfl⟩ := stepIn_ends h
    · rw [hrun] at hb; cases hb
    · cases hb
    · exact ⟨a, hf, ha, hq⟩
    · cases hb
  · rintro ⟨a, hf, ha, hq⟩
    rw [stepIn_running (stepIn_cases h).1 hf, execIn_inp_of_empty ha hq] at h
    cases h
    rfl

theorem stepIn_halted_iff : t.fsm = .halted ↔ fetchInstr s = .ok .hlt := by
  constructor
  · intro hh
    obtain ⟨i, -, hrun, -⟩ | ⟨e, rfl⟩ | ⟨a, -, -, -, rfl⟩ | ⟨hf, -⟩ := stepIn_ends h
    · rw [hrun] at hh; cases hh
    · cases hh
    · cases hh
    · exact hf
  · intro hf
    rw [stepIn_running (stepIn_cases h).1 hf, execIn_hlt] at h
    cases h
    rfl

theorem stepIn_errored_iff : t.fsm = .errored ↔ ∃ e, t = raiseError s e := by
  constructor
  · intro he
    obtain ⟨i, -, hrun, -⟩ | hraise | ⟨a, -, -, -, rfl⟩ | ⟨-, rfl⟩ := stepIn_ends h
    · rw [hrun] at he; cases he
    · exact hraise
    · cases he
    · cases he
  · rintro ⟨e, rfl⟩
    rfl

/-- A step that halts, blocks or raises leaves `pc` (D10, D11). -/
theorem stepIn_pc_of_stop (hstop : t.fsm ≠ .running) : t.pc = s.pc := by
  obtain ⟨i, -, hrun, -⟩ | ⟨e, rfl⟩ | ⟨a, -, -, -, rfl⟩ | ⟨-, rfl⟩ := stepIn_ends h
  · exact absurd hrun hstop
  all_goals rfl

theorem stepIn_pc_of_running {i : Instr} (hf : fetchInstr s = .ok i) (hrun : t.fsm = .running) :
    t.pc = (jumpTarget c s i).getD (s.pc + i.width) := by
  obtain ⟨j, hj, -, hpc⟩ | ⟨e, rfl⟩ | ⟨a, -, -, -, rfl⟩ | ⟨-, rfl⟩ := stepIn_ends h
  · cases hf.symm.trans hj
    exact hpc
  all_goals cases hrun

end

/-- A fetched instruction ends within memory, so the address behind it is a Word (R10, R106). -/
theorem fetchInstr_next_pc_fits {c : Config} {s : State} {i : Instr} (hl : c.legal = true)
    (hlen : s.mem.len ≤ c.addrLimit) (hf : fetchInstr s = .ok i) : c.fits (s.pc + i.width) = true := by
  obtain ⟨h0, hend, -⟩ := fetchInstr_ok hf
  exact address_fits hl (by omega) (by omega)

/-- Settles O35: the cases of a step that stops and of one that goes on, and the end of the fetched instruction. -/
theorem programCounterAdvancesByTheWidth : Obligations.ProgramCounterAdvancesByTheWidth := by
  intro c s t h
  exact ⟨stepIn_pc_of_stop h, fun i hf =>
    ⟨stepIn_pc_of_running h hf, fun hl hlen => fetchInstr_next_pc_fits hl hlen hf⟩⟩

/-! ## Commands and the state machine (R109, R112, R114) -/

theorem command_run_of_terminal (c : Config) (xs : List Int) {s : State} (h : s.fsm = .halted ∨ s.fsm = .errored) :
    command c (.run xs) s = .refused .terminal := by
  rcases h with h | h <;> simp [command, runCommand, startRun, h]

/-- Settles O36: the rows of the table for steps are `stepIn_ends` read in both directions, and those for commands
are what an accepted command does. -/
theorem transitionsAreThoseOfTheTable : Obligations.TransitionsAreThoseOfTheTable := by
  intro c
  refine ⟨fun program input t h => ?_, fun s t h => ?_, fun cmd s t r h => ?_,
    fun xs s => command_run_of_terminal c xs⟩
  · rw [construct_next h]; rfl
  · exact ⟨(stepIn_cases h).1, stepIn_fsm_ne_ready h, stepIn_blocked_iff h, stepIn_halted_iff h,
      stepIn_errored_iff h⟩
  · obtain ⟨hstop, haccepted⟩ := command_next h
    refine ⟨hstop, ?_⟩
    cases haccepted with
    | run xs hf _ => exact ⟨hf, rfl⟩
    | _ => rfl

/-- Settles O50: the flag is the view `halted` of `fsm`, which no other state of the machine satisfies. -/
theorem isHaltedAnswersTheStatus : Obligations.IsHaltedAnswersTheStatus := by
  intro c s hstop
  refine ⟨s.halted, by simp only [command, hstop, if_false], by simp [State.halted], ?_⟩
  rintro (h | h | h) <;> simp [State.halted, h]

end Sys2Proof.Machine
end

section
/-!
PROOF. The timing of input (40_engine.md R118). A step that does not block does the same with more input behind the
queue and with earlier output in front of it (`stepIn_surround`), and a blocked run resumed with more input is where
the same run with that input from the start would be (`RunsTo.resumed_start`).
-/

namespace Sys2Proof.Machine

/-! ## More input behind, earlier output in front -/

/-- The state with `input` behind its input queue and `output` in front of its output queue. -/
def State.surround (input output : List Int) (s : State) : State :=
  { s with inQ := s.inQ ++ input, outQ := output ++ s.outQ }

section
variable {c : Config} {s t : State} {i : Instr} {input : List Int} (output : List Int)

/-- What `surround` leaves is all that fetching and resolving read. -/
theorem fetchInstr_surround : fetchInstr (s.surround input output) = fetchInstr s := rfl

theorem firstError_surround : firstError c (s.surround input output) i = firstError c s i := by
  cases i <;> rfl

/-- Only an IN on an empty queue sees that there is more input. -/
theorem bodyOf_surround (h : input = [] ∨ bodyOf c s i ≠ .block) :
    bodyOf c (s.surround input output) i = bodyOf c s i := by
  cases i with
  | inp a =>
    cases hq : s.inQ with
    | nil =>
      have hempty : input = [] := h.resolve_right (by simp [bodyOf, hq])
      simp [bodyOf, State.surround, hq, hempty]
    | cons v q =>
      simp only [bodyOf, State.surround, hq, List.cons_append]
      rfl
  | _ => rfl

/-- Effects that take only input that is there are the same with more. -/
theorem commit_surround {p : Pending} (h : p.pop = false ∨ s.inQ ≠ []) :
    commit (s.surround input output) p = (commit s p).surround input output := by
  have hq : (if p.pop then (s.inQ ++ input).tail else s.inQ ++ input) =
      (if p.pop then s.inQ.tail else s.inQ) ++ input := by
    rcases h with h | h
    · simp [h]
    · rw [List.tail_append_of_ne_nil h]
      split <;> rfl
  simp only [commit, State.surround, hq, List.append_assoc]

theorem conclude_surround {r : Result} (hr : bodyOf c s i = r) (h : conclude s r = .next t) :
    conclude (s.surround input output) r = .next (t.surround input output) := by
  obtain ⟨p, rfl, rfl⟩ | ⟨e, rfl, rfl⟩ | ⟨rfl, rfl⟩ := conclude_cases h
  · have hpop : p.pop = false ∨ s.inQ ≠ [] :=
      (bodyOf_completes hr).pop.imp_right fun ⟨_, _, _, _, hq⟩ => by simp [hq]
    rw [conclude_done, commit_surround output hpop]
  · rfl
  · rfl

/-- An instruction that does not block does the same with more input behind and earlier output in front. -/
theorem execIn_surround (h : execIn c i s = .next t) (hin : input = [] ∨ t.fsm ≠ .blocked) :
    execIn c i (s.surround input output) = .next (t.surround input output) := by
  by_cases hi : i = .hlt
  · subst hi
    cases h
    rfl
  cases he : firstError c s i with
  | some e =>
    rw [execIn_of_firstError he] at h
    cases h
    exact execIn_of_firstError ((firstError_surround output).trans he)
  | none =>
    rw [execIn_of_no_error hi he] at h
    have hbody : input = [] ∨ bodyOf c s i ≠ .block := hin.imp_right fun hne hb => by
      rw [hb] at h
      cases h
      exact hne rfl
    rw [execIn_of_no_error hi ((firstError_surround output).trans he), bodyOf_surround output hbody]
    exact conclude_surround output rfl h

theorem stepIn_surround (h : stepIn c s = .next t) (hin : input = [] ∨ t.fsm ≠ .blocked) :
    stepIn c (s.surround input output) = .next (t.surround input output) := by
  obtain ⟨hr, ⟨e, hf, rfl⟩ | ⟨i, hf, hx⟩⟩ := stepIn_cases h
  · exact stepIn_error hr ((fetchInstr_surround output).trans hf)
  · rw [stepIn_running (s := s.surround input output) hr ((fetchInstr_surround output).trans hf)]
    exact execIn_surround output hx hin

/-- A run with earlier output in front ends with it in front. -/
theorem RunsTo.surround (h : RunsTo c s t) : RunsTo c (s.surround [] output) (t.surround [] output) := by
  induction h with
  | ended s hstop => exact .ended _ hstop
  | step s t u hs _ ih => exact .step _ _ _ (stepIn_surround output hs (.inl rfl)) ih

end

/-! ## Resuming a blocked run (R108, R111) -/

/-- The state with `xs` appended to the input and the run going on: what the start of a RUN leaves (R108). -/
def resumed (xs : List Int) (s : State) : State := { s with inQ := s.inQ ++ xs, fsm := .running }

theorem resumed_resumed (xs ys : List Int) (s : State) : resumed ys (resumed xs s) = resumed (xs ++ ys) s := by
  simp [resumed]

theorem resumed_block (xs : List Int) (s : State) : resumed xs (block s) = resumed xs s := rfl

theorem resumed_surround (xs output : List Int) (s : State) :
    resumed xs (s.surround [] output) = (resumed xs s).surround [] output := by
  simp [resumed, State.surround]

theorem resumed_of_running (xs : List Int) {s : State} (h : s.fsm = .running) :
    resumed xs s = s.surround xs [] := by
  simp [resumed, State.surround, h]

/-- A run from a state that does not run ends there. -/
theorem RunsTo.eq_of_stopped {c : Config} {s t : State} (h : RunsTo c s t) (hstop : s.fsm ≠ .running) : t = s := by
  cases h with
  | ended _ _ => rfl
  | step _ _ _ hs _ => exact absurd (stepIn_cases hs).1 hstop

/-- A run that ends Blocked, started with more input, goes on as the blocked run does when it is resumed with that
input. -/
theorem RunsTo.resumed_start {c : Config} {s t u : State} {ys : List Int} (h : RunsTo c s t) (hb : t.fsm = .blocked)
    (hu : RunsTo c (resumed ys t) u) : RunsTo c (resumed ys s) u := by
  induction h with
  | ended s _ => exact hu
  | step s m t hs hm ih =>
    have hr := (stepIn_cases hs).1
    have htail := ih hb hu
    obtain ⟨-, -, hrun, -⟩ | ⟨e, rfl⟩ | ⟨a, -, -, -, rfl⟩ | ⟨-, rfl⟩ := stepIn_ends hs
    · have hnext : stepIn c (s.surround ys []) = .next (m.surround ys []) :=
        stepIn_surround [] hs (.inr (by simp [hrun]))
      rw [resumed_of_running ys hr]
      exact .step _ _ _ hnext (resumed_of_running ys hrun ▸ htail)
    · rw [hm.eq_of_stopped nofun] at hb; cases hb
    · rwa [resumed_block] at htail
    · rw [hm.eq_of_stopped nofun] at hb; cases hb

/-! ## RUNs (R100, R108) -/

theorem startRun_of_admitted {c : Config} {xs : List Int} {s : State} (hf : s.fsm = .ready ∨ s.fsm = .blocked)
    (ha : admits c xs = true) : startRun c xs s = .next (resumed xs s) := by
  rcases hf with hf | hf <;> simp [startRun, resumed, hf, ha]

/-- A RUN is an accepted start and the run from there. -/
theorem run_iff {c : Config} {xs : List Int} {s t : State} :
    Run c xs s t ↔
      (s.fsm = .ready ∨ s.fsm = .blocked) ∧ admits c xs = true ∧ RunsTo c (resumed xs s) t := by
  constructor
  · rintro ⟨u, hstart, hrun⟩
    obtain ⟨hf, ha, rfl⟩ := startRun_next hstart
    exact ⟨hf, ha, hrun⟩
  · rintro ⟨hf, ha, hrun⟩
    exact ⟨_, startRun_of_admitted hf ha, hrun⟩

theorem admits_append (c : Config) (xs ys : List Int) : admits c (xs ++ ys) = (admits c xs && admits c ys) :=
  List.all_append

/-- Two RUNs, the first ending Blocked, are one RUN with both inputs. -/
theorem Run.append {c : Config} {xs ys : List Int} {s t u : State} (h : Run c xs s t) (hb : t.fsm = .blocked)
    (h' : Run c ys t u) : Run c (xs ++ ys) s u := by
  obtain ⟨hf, hx, hrun⟩ := run_iff.1 h
  obtain ⟨-, hy, hrun'⟩ := run_iff.1 h'
  refine run_iff.2 ⟨hf, by simp [admits_append, hx, hy], ?_⟩
  exact resumed_resumed xs ys s ▸ hrun.resumed_start hb hrun'

/-- A RUN with earlier output in front ends with it in front. -/
theorem Run.surround {c : Config} {xs : List Int} {s t : State} (h : Run c xs s t) (output : List Int) :
    Run c xs (s.surround [] output) (t.surround [] output) := by
  obtain ⟨hf, hx, hrun⟩ := run_iff.1 h
  exact run_iff.2 ⟨hf, hx, resumed_surround xs output s ▸ hrun.surround output⟩

/-- Draining and then counting the drained words as still queued changes nothing. -/
theorem drained_surround (s : State) : (drained s).surround [] s.outQ = s := by
  simp [drained, State.surround]

/-- Several RUNs are one RUN with all their inputs, the drained words counted as still queued (R118). -/
theorem RunsAcross.run_flatten {c : Config} {s u : State} {xss : List (List Int)} {out : List Int}
    (h : RunsAcross c s xss out u) : Run c xss.flatten s (u.surround [] out) := by
  induction h with
  | last s t xs hrun => simpa [State.surround] using hrun
  | more s t u xs rest out hrun hb _ ih => exact hrun.append hb ih
  | drain s t u xs rest out hrun hb _ ih =>
    have hrest := ih.surround t.outQ
    rw [drained_surround] at hrest
    simpa [State.surround] using hrun.append hb hrest

/-- Settles O54: RUNs that end Blocked are joined one by one, and the state a RUN starts in does not tell input given
at CONSTRUCT from input given to the RUN. -/
theorem inputTimingDoesNotMatter : Obligations.InputTimingDoesNotMatter := by
  refine fun c => ⟨fun s u xss out h => ?_, fun program xs ys t hx => ?_⟩
  · simpa [State.surround] using h.run_flatten
  · have hstart : resumed ys (constructed c program xs) = resumed (xs ++ ys) (constructed c program []) := rfl
    simp [run_iff, admits_append, hx, hstart]

end Sys2Proof.Machine
end

section
/-!
PROOF. Arithmetic (41_arithmetic.md): ADD and MUL within the Word range (R131, R132), and that an instruction sees a
read operand through `resolveRead` alone, so operands that resolve alike can be exchanged (R78, R133).
-/

namespace Sys2Proof.Machine

/-! ## The results within the Word range -/

/-- Settles O12: a sum in the Word range passes the overflow check as it is. -/
theorem addStoresTheSum : Obligations.AddStoresTheSum := by
  intro s a b d ha hb hd hfits
  rw [exec_eq_execIn]
  exact execIn_add_of_chk ha hb hd (chk_of_fits hfits)

/-- Settles O13: a product in the Word range passes the overflow check as it is. -/
theorem mulStoresTheProduct : Obligations.MulStoresTheProduct := by
  intro s a b d ha hb hd hfits
  rw [exec_eq_execIn]
  exact execIn_mul_of_chk ha hb hd (chk_of_fits hfits)

/-! ## Operands that resolve alike (R78) -/

/-- Read operands `p` and `q` resolve alike in every read place, after whatever growth is pending. -/
def ReadsAlike (c : Config) (s : State) (p q : Param) : Prop :=
  ∀ (pending : Nat) (k : Fin 3), resolveRead c s pending k p = resolveRead c s pending k q

/-- Reading an existing cell gives its word and asks for no growth, under either memory policy (R52). -/
theorem memRead_of_lt {c : Config} {m : Memory} {a : Int} (pending : Nat) (k : Fin 3) (h0 : 0 ≤ a)
    (hlt : a < m.len) : memRead c m pending k a = .ok (m.get a.toNat, pending) := by
  simp [memRead, checkDataAddress, h0.not_gt, hlt]

/-- An existing cell reads like its word given as an immediate. -/
theorem readsAlike_positional_immediate {c : Config} {s : State} {a : Int} (h0 : 0 ≤ a) (hlt : a < s.mem.len) :
    ReadsAlike c s ⟨.positional, a⟩ ⟨.immediate, s.mem.get a.toNat⟩ :=
  fun pending k => memRead_of_lt pending k h0 hlt

section
variable {c : Config} {s : State} {p q : Param} (h : ReadsAlike c s p q)
include h

theorem ReadsAlike.resolveTwo_left (x : Param) : resolveTwo c s p x = resolveTwo c s q x := by
  simp only [resolveTwo, h s.mem.len 0]

theorem ReadsAlike.resolveTwo_right (x : Param) : resolveTwo c s x p = resolveTwo c s x q := by
  simp only [resolveTwo, h _ 1]

/-- The read places of format F3RRW (R74). -/
theorem ReadsAlike.storeResult_congr (f : Int → Int → Option Int) (x d : Param) :
    storeResult c s f p x d = storeResult c s f q x d ∧ storeResult c s f x p d = storeResult c s f x q d := by
  simp only [storeResult, h.resolveTwo_left, h.resolveTwo_right, and_self]

/-- The read places of format F2RR (R74). -/
theorem ReadsAlike.jumpWhen_congr (taken : Int → Bool) (x : Param) :
    jumpWhen c s taken p x = jumpWhen c s taken q x ∧ jumpWhen c s taken x p = jumpWhen c s taken x q := by
  simp only [jumpWhen, h.resolveTwo_left, h.resolveTwo_right, and_self]

theorem ReadsAlike.outputResult_congr : outputResult c s p = outputResult c s q := by
  simp only [outputResult, h s.mem.len 0]

theorem ReadsAlike.adjustBaseResult_congr : adjustBaseResult c s p = adjustBaseResult c s q := by
  simp only [adjustBaseResult, h s.mem.len 0]

end

/-- Settles O27: the two operands resolve alike, and every instruction with a read place has one of the four shapes
above. -/
theorem immediateAndPositionalOperandsAgree : Obligations.ImmediateAndPositionalOperandsAgree := by
  rintro c s lit _ h0 hlt rfl p q x d rfl rfl
  have halike := readsAlike_positional_immediate (c := c) h0 hlt
  have hstore := fun f => halike.storeResult_congr f x d
  have hjump := fun taken => halike.jumpWhen_congr taken x
  simp only [execIn, addIn, mulIn, ltIn, eqIn, jtIn, jfIn, outIn, arbIn, hstore, hjump, halike.outputResult_congr,
    halike.adjustBaseResult_congr, and_self]

end Sys2Proof.Machine
end

section
/-!
PROOF. Input and output (42_io.md): IN with a word in the queue (R140, R142), OUT (R141, R145) and DRAIN (R144).
-/

namespace Sys2Proof.Machine

/-! ## The instructions (R140, R141) -/

theorem firstErrorFrom_write_none {c : Config} {s : State} {a : Param} (ha : writable c s a = true) :
    firstErrorFrom c s 0 [(.write, a)] = none := by
  simp only [firstErrorFrom, paramError_write_none.2 ha]

/-- IN with a usable target and a word in the queue stores that word and takes it from the queue. -/
theorem execIn_inp_of_cons {c : Config} {s : State} {a : Param} {v : Int} {rest : List Int}
    (ha : writable c s a = true) (hq : s.inQ = v :: rest) :
    execIn c (.inp a) s = .next { stored c s [a] a v 2 with inQ := rest } := by
  rw [execIn_of_no_error (i := .inp a) nofun (firstErrorFrom_write_none ha)]
  simp [bodyOf, hq, commit, stored]

/-- OUT on a readable parameter appends its value to the output queue. -/
theorem execIn_out_of_readable {c : Config} {s : State} {a : Param} (ha : readable c s a = true) :
    execIn c (.out a) s = .next { s with
      mem := s.mem.setLen (lenAfter c s [a])
      pc := s.pc + 2
      outQ := s.outQ ++ [valueOf c s a] } := by
  rw [execIn_of_no_error (i := .out a) nofun (firstErrorFrom_read_none ha)]
  simp [bodyOf, commit]

/-- Settles O16: the target is usable, so IN runs its body on the front of the queue. -/
theorem inputStoresTheFrontOfTheQueue : Obligations.InputStoresTheFrontOfTheQueue := by
  intro s a v rest ha hq
  rw [exec_eq_execIn]
  exact execIn_inp_of_cons ha hq

/-- Settles O18: the operand is readable, so OUT runs its body on the operand's value. -/
theorem outputAppendsTheOperand : Obligations.OutputAppendsTheOperand := by
  intro s a ha
  rw [exec_eq_execIn]
  exact execIn_out_of_readable ha

/-! ## DRAIN (R144) -/

/-- Between runs DRAIN is accepted, and answers the output queue. -/
theorem command_drain (c : Config) {s : State} (hstop : s.fsm ≠ .running) :
    command c .drain s = .next (drained s, .words s.outQ) := by
  simp only [command, hstop, if_false]

/-- Settles O48: DRAIN leaves `fsm` as it is, so a second one is accepted too, and finds the queue empty. -/
theorem drainReturnsTheOutputOnce : Obligations.DrainReturnsTheOutputOnce := by
  intro c s hstop
  have hstop_drained : (drained s).fsm ≠ .running := hstop
  exact ⟨command_drain c hstop, command_drain c hstop_drained⟩

end Sys2Proof.Machine
end

section
/-!
PROOF. The conditional jumps (43_jumps.md): JT and JF on readable parameters, taken or not (R160, R161), with any Word
as the target (R162).
-/

namespace Sys2Proof.Machine

/-- Committing the body of a jump grows memory to the cells read and moves `pc`, whatever the condition (R74). -/
theorem conclude_jumpBody (c : Config) (s : State) (taken : Int → Bool) (a b : Param) :
    conclude s (jumpBody c s taken a b) = .next { s with
      mem := s.mem.setLen (lenAfter c s [a, b])
      pc := if taken (valueOf c s a) then valueOf c s b else s.pc + 3 } := by
  simp [jumpBody, commit]

/-- JT on readable parameters jumps where the condition is not 0. -/
theorem execIn_jt_of_readable {c : Config} {s : State} {a b : Param} (ha : readable c s a = true)
    (hb : readable c s b = true) :
    execIn c (.jt a b) s = .next { s with
      mem := s.mem.setLen (lenAfter c s [a, b])
      pc := if valueOf c s a ≠ 0 then valueOf c s b else s.pc + 3 } := by
  rw [execIn_of_no_error (i := .jt a b) nofun (firstErrorFrom_read_read_none ha hb), bodyOf, conclude_jumpBody]
  simp only [condTrue, decide_eq_true_eq]

/-- JF on readable parameters jumps where the condition is 0. -/
theorem execIn_jf_of_readable {c : Config} {s : State} {a b : Param} (ha : readable c s a = true)
    (hb : readable c s b = true) :
    execIn c (.jf a b) s = .next { s with
      mem := s.mem.setLen (lenAfter c s [a, b])
      pc := if valueOf c s a = 0 then valueOf c s b else s.pc + 3 } := by
  rw [execIn_of_no_error (i := .jf a b) nofun (firstErrorFrom_read_read_none ha hb), bodyOf, conclude_jumpBody]
  simp only [condFalse, decide_eq_true_eq]

/-- Settles O19: both parameters are readable, so JT runs its body, whose condition is that the first is not 0. -/
theorem jumpIfTrueSetsThePc : Obligations.JumpIfTrueSetsThePc := by
  intro s a b ha hb
  rw [exec_eq_execIn]
  exact execIn_jt_of_readable ha hb

/-- Settles O20: both parameters are readable, so JF runs its body, whose condition is that the first is 0. -/
theorem jumpIfFalseSetsThePc : Obligations.JumpIfFalseSetsThePc := by
  intro s a b ha hb
  rw [exec_eq_execIn]
  exact execIn_jf_of_readable ha hb

end Sys2Proof.Machine
end

section
/-!
PROOF. The comparisons (44_compare.md): LT and EQ on usable parameters (R170, R171). Their result is a truth word,
which needs no overflow check, so usable parameters are all that the store asks for.
-/

namespace Sys2Proof.Machine

theorem truthWord_decide (p : Prop) [Decidable p] : truthWord (decide p) = if p then 1 else 0 := by
  simp only [truthWord, decide_eq_true_eq]

/-- LT on usable parameters stores 1 where the first value is the lesser, else 0. -/
theorem execIn_lt_of_usable {c : Config} {s : State} {a b d : Param} (ha : readable c s a = true)
    (hb : readable c s b = true) (hd : writable c s d = true) :
    execIn c (.lt a b d) s = .next (stored c s [a, b, d] d (if valueOf c s a < valueOf c s b then 1 else 0) 4) := by
  rw [execIn_of_no_error (i := .lt a b d) nofun (firstErrorFrom_read_read_write_none ha hb hd), ← truthWord_decide]
  exact conclude_storeBody (f := fun x y => some (truthWord (decide (x < y)))) rfl

/-- EQ on usable parameters stores 1 where the two values are equal, else 0. -/
theorem execIn_eq_of_usable {c : Config} {s : State} {a b d : Param} (ha : readable c s a = true)
    (hb : readable c s b = true) (hd : writable c s d = true) :
    execIn c (.eq a b d) s = .next (stored c s [a, b, d] d (if valueOf c s a = valueOf c s b then 1 else 0) 4) := by
  rw [execIn_of_no_error (i := .eq a b d) nofun (firstErrorFrom_read_read_write_none ha hb hd), ← truthWord_decide]
  exact conclude_storeBody (f := fun x y => some (truthWord (decide (x = y)))) rfl

/-- Settles O14: the parameters are usable, so LT stores the truth word of its comparison. -/
theorem lessThanStoresOneOrZero : Obligations.LessThanStoresOneOrZero := by
  intro s a b d ha hb hd
  rw [exec_eq_execIn]
  exact execIn_lt_of_usable ha hb hd

/-- Settles O15: the parameters are usable, so EQ stores the truth word of its comparison. -/
theorem equalsStoresOneOrZero : Obligations.EqualsStoresOneOrZero := by
  intro s a b d ha hb hd
  rw [exec_eq_execIn]
  exact execIn_eq_of_usable ha hb hd

end Sys2Proof.Machine
end

section
/-!
PROOF. The relative base (45_relative_base.md): ARB on a readable operand (R180), and two ARBs in a row (R181).
-/

namespace Sys2Proof.Machine

/-- ARB on an immediate operand changes nothing but `pc` and the base: it reads no cell, so memory does not grow. -/
theorem execIn_arb_immediate {c : Config} {s : State} {v : Int} (hf : c.fits (s.rb + v) = true) :
    execIn c (.arb ⟨.immediate, v⟩) s = .next { s with pc := s.pc + 2, rb := s.rb + v } := by
  rw [execIn_arb_of_chk (readable_immediate c s v) (chk_of_fits hf)]
  simp [lenAfter, Memory.setLen]

/-- A relative parameter names the base plus its literal wherever that is a Word (R80). -/
theorem addressOf_relative_of_fits {c : Config} {s : State} {o : Int} (hf : c.fits (s.rb + o) = true) :
    addressOf c s ⟨.relative, o⟩ = some (s.rb + o) :=
  chk_of_fits hf

/-- Settles O21: the operand is readable and the sum is a Word, so the overflow check answers the sum itself. -/
theorem adjustRelativeBaseAddsTheOperand : Obligations.AdjustRelativeBaseAddsTheOperand := by
  intro s a ha hf
  rw [exec_eq_execIn]
  exact execIn_arb_of_chk ha (chk_of_fits hf)

/-- Settles O40: the second ARB starts from the base the first one left, and the relative parameter from the base
the second one left. -/
theorem adjustmentsOfTheBaseAdd : Obligations.AdjustmentsOfTheBaseAdd := by
  intro s x y hx hxy
  simp only [exec_eq_execIn]
  exact ⟨_, _, execIn_arb_immediate hx, execIn_arb_immediate hxy, rfl, fun _ ho => addressOf_relative_of_fits ho⟩

end Sys2Proof.Machine
end

section
/-!
PROOF. HLT (46_halt.md): the words that decode to it (R76) and what it does (R190).
-/

namespace Sys2Proof.Machine

/-- HLT has no parameters, so every digit of its word above the two of its code is ignored (R76, D8), and so is every
cell behind it. -/
theorem decode_eq_hlt_iff {w : Int} {lits : List Int} :
    decode (w :: lits) = .ok .hlt ↔ 0 ≤ w ∧ w % 100 = 99 := by
  simpa [Instr.width, Instr.params, opcodeWord, Instr.opcode, Opcode.code, modesNumber]
    using decodeReadsTheUsedDigits w lits .hlt

/-- HLT sets the status and nothing else, `pc` included (R190, D10). -/
theorem exec_hlt (s : State) : exec .hlt s = .next (haltState s) := by
  rw [exec_eq_execIn, execIn_hlt]

/-- Settles O22: a word that ends in 99 decodes to HLT, so the step runs HLT. -/
theorem haltOnlySetsTheStatus : Obligations.HaltOnlySetsTheStatus := by
  refine ⟨fun s => ⟨exec_hlt s, rfl⟩, fun s w hr h0 hl hw hnonneg h99 => ?_⟩
  have hdecode : decode [s.mem.get s.pc.toNat] = .ok .hlt := hw ▸ decode_eq_hlt_iff.2 ⟨hnonneg, h99⟩
  have hend : s.pc + Instr.hlt.width ≤ s.mem.len := Int.add_one_le_iff.2 hl
  exact (stepRunsTheDecodedInstruction s .hlt hr h0 hend hdecode).trans (exec_hlt s)

end Sys2Proof.Machine
end

section
/-!
PROOF. Errors (60_exceptions.md): a step of a run always answers a next state (R209), an error leaves everything but
the status (R208, D11), and which error an instruction can raise, said once in `execIn_err` and `stepIn_err`.
-/

namespace Sys2Proof.Machine

/-! ## Every step answers a next state (R102, R209) -/

/-- A step of a running machine raises what its fetch raises, or executes what it fetched. -/
theorem stepIn_next (c : Config) {s : State} (hr : s.fsm = .running) : ∃ t, stepIn c s = .next t := by
  cases hf : fetchInstr s with
  | error e => exact ⟨_, stepIn_error hr hf⟩
  | ok i => exact stepIn_running (c := c) hr hf ▸ execIn_next c i s

/-- Settles O8: an instruction and a running step answer a next state, by `execIn_next` and `stepIn_next`. -/
theorem everyStepOfARunAnswersANextState : Obligations.EveryStepOfARunAnswersANextState :=
  ⟨fun i s => exec_eq_execIn i s ▸ execIn_next Config.spec i s,
    fun c _ => ⟨stepIn_next c, stepIn_not_running⟩⟩

/-- Settles O11: the first parameter error is what the instruction raises, and raising only sets the status. -/
theorem firstParameterErrorIsReported : Obligations.FirstParameterErrorIsReported :=
  ⟨fun _ _ _ _ he => execIn_of_firstError he,
    fun i s _ he => (exec_eq_execIn i s).trans (execIn_of_firstError he)⟩

/-- Settles O34: a step ends Errored only by raising, which writes `fsm` and the record of `pc` and its word. -/
theorem errorsArePrecise : Obligations.ErrorsArePrecise := by
  intro c s t h herr
  obtain ⟨e, rfl⟩ := (stepIn_errored_iff h).1 herr
  exact ⟨⟨rfl, rfl, rfl, rfl, rfl, rfl⟩, errRecord s e, rfl, rfl, rfl, rfl⟩

/-! ## The overflow of a result (R130, R205) -/

/-- An F3RRW instruction without a result raises ArithmeticOverflow for no parameter (R207). -/
theorem conclude_storeBody_overflow {c : Config} {s : State} {f : Int → Int → Option Int} {a b d : Param}
    (hf : f (valueOf c s a) (valueOf c s b) = none) :
    conclude s (storeBody c s f a b d) = .next (raiseError s ⟨.arithmeticOverflow, none⟩) := by
  simp only [storeBody, hf, conclude_raise]

/-- ADD on usable parameters raises where its sum fails the overflow check (R131). -/
theorem execIn_add_of_overflow {c : Config} {s : State} {a b d : Param} (ha : readable c s a = true)
    (hb : readable c s b = true) (hd : writable c s d = true)
    (hv : chk c (valueOf c s a + valueOf c s b) = none) :
    execIn c (.add a b d) s = .next (raiseError s ⟨.arithmeticOverflow, none⟩) := by
  rw [execIn_of_no_error (i := .add a b d) nofun (firstErrorFrom_read_read_write_none ha hb hd)]
  exact conclude_storeBody_overflow (f := fun x y => chk c (x + y)) hv

/-- MUL on usable parameters raises where its product fails the overflow check (R132). -/
theorem execIn_mul_of_overflow {c : Config} {s : State} {a b d : Param} (ha : readable c s a = true)
    (hb : readable c s b = true) (hd : writable c s d = true)
    (hv : chk c (valueOf c s a * valueOf c s b) = none) :
    execIn c (.mul a b d) s = .next (raiseError s ⟨.arithmeticOverflow, none⟩) := by
  rw [execIn_of_no_error (i := .mul a b d) nofun (firstErrorFrom_read_read_write_none ha hb hd)]
  exact conclude_storeBody_overflow (f := fun x y => chk c (x * y)) hv

/-- ARB on a readable parameter raises where the new base fails the overflow check (R180). -/
theorem execIn_arb_of_overflow {c : Config} {s : State} {a : Param} (ha : readable c s a = true)
    (hv : chk c (s.rb + valueOf c s a) = none) :
    execIn c (.arb a) s = .next (raiseError s ⟨.arithmeticOverflow, none⟩) := by
  rw [execIn_of_no_error (i := .arb a) nofun (firstErrorFrom_read_none ha)]
  simp only [bodyOf, hv, conclude_raise]

/-- Settles O23: this spec's policy is `fault`, so the overflow check answers nothing outside the Word range. -/
theorem resultOverflowRaises : Obligations.ResultOverflowRaises := by
  intro s a b d ha
  simp only [exec_eq_execIn]
  exact ⟨fun hb hd => ⟨fun hv => execIn_add_of_overflow ha hb hd (chk_fault hv rfl),
      fun hv => execIn_mul_of_overflow ha hb hd (chk_fault hv rfl)⟩,
    fun hv => execIn_arb_of_overflow ha (chk_fault hv rfl)⟩

/-! ## Where an error comes from (R201 to R205) -/

/-- What an instruction does to the error record: nothing, or it records its first parameter error or the error of
its body. -/
theorem execIn_err {c : Config} {i : Instr} {s t : State} (h : execIn c i s = .next t) :
    t.err = s.err ∨
      ∃ e, t = raiseError s e ∧ (firstError c s i = some e ∨ bodyOf c s i = .raise e) := by
  by_cases hi : i = .hlt
  · subst hi
    cases h
    exact .inl rfl
  cases he : firstError c s i with
  | some e =>
    rw [execIn_of_firstError he] at h
    cases h
    exact .inr ⟨e, rfl, .inl rfl⟩
  | none =>
    rw [execIn_of_no_error hi he] at h
    obtain ⟨p, -, rfl⟩ | ⟨e, hb, rfl⟩ | ⟨-, rfl⟩ := conclude_cases h
    · exact .inl rfl
    · exact .inr ⟨e, rfl, .inr hb⟩
    · exact .inl rfl

/-- What a step does to the error record: nothing, or it records the error of its fetch, the first parameter error or
the error of the body. -/
theorem stepIn_err {c : Config} {s t : State} (h : stepIn c s = .next t) :
    t.err = s.err ∨ ∃ e, t = raiseError s e ∧
      (fetchInstr s = .error e ∨ ∃ i, firstError c s i = some e ∨ bodyOf c s i = .raise e) := by
  obtain ⟨-, ⟨e, hf, rfl⟩ | ⟨i, -, hx⟩⟩ := stepIn_cases h
  · exact .inr ⟨e, rfl, .inl hf⟩
  · exact (execIn_err hx).imp_right fun ⟨e, ht, he⟩ => ⟨e, ht, .inr ⟨i, he⟩⟩

/-! ## Only the overflow check raises ArithmeticOverflow (R205) -/

/-- A fetch raises InvalidOpcode or ProgramCounterOverrun (R201, R202). -/
theorem fetchInstr_error_kind {s : State} {e : Trap} (h : fetchInstr s = .error e) :
    e.kind ≠ .arithmeticOverflow := by
  unfold fetchInstr at h
  split at h
  · rename_i d _
    cases h
    cases d <;> simp [trapOfDecode]
  · cases h

/-- A parameter raises ArithmeticOverflow only where its relative sum fails the overflow check. -/
theorem paramError_overflow {c : Config} {s : State} {acc : Access} {k : Fin 3} {p : Param} {e : Trap}
    (h : paramError c s acc k p = some e) (he : e.kind = .arithmeticOverflow) : ∃ v, chk c v = none := by
  unfold paramError at h
  split at h
  · cases h; cases he
  · rename_i hlegal
    split at h
    · cases h
    · rename_i himm
      split at h
      · rename_i hnone
        obtain hm | ⟨x, hm⟩ | ⟨-, hsum⟩ := addressOf_eq_none hnone
        · exact absurd hm himm
        · exact absurd (by rw [hm]; rfl) hlegal
        · exact ⟨_, hsum⟩
      · split at h
        · cases h
        · cases h; cases he

/-- A list of parameters raises ArithmeticOverflow only where one of their relative sums fails the overflow check. -/
theorem firstErrorFrom_overflow {c : Config} {s : State} {ps : List (Access × Param)} {k : Nat} {e : Trap}
    (h : firstErrorFrom c s k ps = some e) (he : e.kind = .arithmeticOverflow) : ∃ v, chk c v = none := by
  induction ps generalizing k with
  | nil => cases h
  | cons q rest ih =>
    simp only [firstErrorFrom] at h
    split at h
    · rename_i hp
      cases h
      exact paramError_overflow hp he
    · exact ih h

/-- An F3RRW body raises only where its operands have no result (R74). -/
theorem storeBody_raise {c : Config} {s : State} {f : Int → Int → Option Int} {a b d : Param} {e : Trap}
    (h : storeBody c s f a b d = .raise e) : f (valueOf c s a) (valueOf c s b) = none := by
  unfold storeBody at h
  split at h
  · assumption
  · cases h

/-- A body raises only where its result fails the overflow check: that of ADD, MUL or ARB. -/
theorem bodyOf_raise {c : Config} {s : State} {i : Instr} {e : Trap} (h : bodyOf c s i = .raise e) :
    ∃ v, chk c v = none := by
  cases i with
  | add a b d => exact ⟨_, storeBody_raise (f := fun x y => chk c (x + y)) h⟩
  | mul a b d => exact ⟨_, storeBody_raise (f := fun x y => chk c (x * y)) h⟩
  | lt a b d => cases h
  | eq a b d => cases h
  | arb a =>
    simp only [bodyOf] at h
    split at h
    · rename_i hv
      exact ⟨_, hv⟩
    · cases h
  | inp a => simp only [bodyOf] at h; split at h <;> cases h
  | out a => cases h
  | jt a b => cases h
  | jf a b => cases h
  | hlt => cases h

/-- Under `wrap` or with unbounded Words the overflow check always answers. -/
theorem chk_ne_none {c : Config} (hc : c.overflowPolicy = .wrap ∨ c.wordBits = none) (v : Int) :
    chk c v ≠ none := by
  intro hv
  obtain ⟨hfits, hfault⟩ := chk_none hv
  rcases hc with hwrap | hinf
  · rw [hwrap] at hfault; cases hfault
  · rw [fits_inf hinf] at hfits; cases hfits

/-- Settles O25: a step that records ArithmeticOverflow has a value that fails the overflow check, which at these
configurations no value does; and a fetch raises other kinds only. -/
theorem noOverflowErrorUnderWrapOrInf : Obligations.NoOverflowErrorUnderWrapOrInf := by
  intro c hc s t r h hr
  obtain hkept | ⟨e, rfl, horigin⟩ := stepIn_err h
  · exact .inl (hkept ▸ hr)
  · cases hr
    refine .inr fun hkind => ?_
    obtain hfetch | ⟨i, hparam | hbody⟩ := horigin
    · exact fetchInstr_error_kind hfetch hkind
    · obtain ⟨v, hv⟩ := firstErrorFrom_overflow hparam hkind
      exact chk_ne_none hc v hv
    · obtain ⟨v, hv⟩ := bodyOf_raise hbody
      exact chk_ne_none hc v hv

end Sys2Proof.Machine
end

section
/-!
PROOF. Construction, reset and the acceptance of commands (70_reset_and_hazards.md R230 to R232, R112, R101).
-/

namespace Sys2Proof.Machine

/-! ## CONSTRUCT (R230, R231) -/

theorem construct_of_admitted {c : Config} {program input : List Int} (hp : admits c program = true)
    (hi : admits c input = true) (hlen : program.length ≤ c.addrLimit) :
    construct c program input = .next (constructed c program input) := by
  simp [construct, hp, hi, hlen]

/-- CONSTRUCT refuses a value that is no Word and a program longer than `ADDR_LIMIT` (D25). -/
theorem construct_of_not_admitted {c : Config} {program input : List Int}
    (h : admits c program = false ∨ admits c input = false ∨ c.addrLimit < program.length) :
    construct c program input = .refused .dataNotAdmitted := by
  rcases h with h | h | h <;> simp [construct, h]

/-- CONSTRUCT answers a state only for admitted data. -/
theorem construct_next_admitted {c : Config} {program input : List Int} {t : State}
    (h : construct c program input = .next t) :
    admits c program = true ∧ admits c input = true ∧ program.length ≤ c.addrLimit := by
  unfold construct at h
  split at h
  · rename_i hadmitted
    simpa [and_assoc] using hadmitted
  · cases h

/-- Admitted data makes a state that meets the invariant. -/
theorem constructed_inv {c : Config} {program input : List Int} (hl : c.legal = true)
    (hp : admits c program = true) (hi : admits c input = true) (hlen : program.length ≤ c.addrLimit) :
    (constructed c program input).Inv c := by
  have h0 : c.fits 0 = true := small_fits hl (by norm_num) (by norm_num)
  have hmem : (programMemory program).Good c := programMemory_good hl (List.all_eq_true.1 hp) hlen
  refine ⟨hmem, h0, h0, List.all_eq_true.1 hi, nofun, by simp, ?image, fun m hm => ?imageGood⟩
  case image =>
    rw [constructed_image0]
    cases c.resetRestoresMemory <;> rfl
  case imageGood =>
    rw [constructed_image0] at hm
    split at hm
    · cases hm; exact hmem
    · cases hm

/-- Settles O44, by `constructed_inv` and `command_inv`. -/
theorem commandsKeepTheInvariant : Obligations.CommandsKeepTheInvariant := by
  refine fun c hl => ⟨fun program input t h => ?_, fun _ _ _ _ hs h => command_inv hl hs h⟩
  obtain ⟨hp, hi, hlen⟩ := construct_next_admitted h
  exact construct_next h ▸ constructed_inv hl hp hi hlen

/-- Settles O45: admitted data is not refused, and a program's memory holds its words and zeros behind. -/
theorem constructLoadsTheProgram : Obligations.ConstructLoadsTheProgram := by
  intro c program input hp hi hlen
  refine ⟨_, construct_of_admitted hp hi hlen, rfl, fun a ha => ?_, fun a ha => ?_,
    rfl, rfl, rfl, rfl, rfl, rfl, rfl⟩
  · rw [constructed_mem, programMemory_get, List.getD_eq_getElem _ _ ha]
  · rw [constructed_mem, programMemory_get, List.getD_eq_default _ _ ha]

/-- Settles O46: the empty program and the empty input are admitted, and leave the reset state. -/
theorem resetIsTheEmptyProgram : Obligations.ResetIsTheEmptyProgram :=
  construct_of_admitted rfl rfl (Nat.zero_le _)

/-! ## RUN's start, and commands in a run (R101, R108, R112) -/

theorem startRun_of_not_admitted {c : Config} {xs : List Int} {s : State} (hf : s.fsm = .ready ∨ s.fsm = .blocked)
    (ha : admits c xs = false) : startRun c xs s = .refused .dataNotAdmitted := by
  rcases hf with hf | hf <;> simp [startRun, hf, ha]

/-- Between runs RUN answers what its start answers. -/
theorem command_run {c : Config} {xs : List Int} {s : State} (hstop : s.fsm ≠ .running) :
    command c (.run xs) s = runCommand c xs s := by
  simp only [command, hstop, if_false]

theorem command_of_running (c : Config) (cmd : Command) {s : State} (hr : s.fsm = .running) :
    command c cmd s = .refused .runInProgress := by
  simp only [command, hr, if_true]

/-- Settles O47: CONSTRUCT and RUN are refused as their starts are, a Ready or Blocked machine starts the run on
admitted input, and a command looks first at whether a run is in progress. -/
theorem runAppendsItsInputOrIsRefused : Obligations.RunAppendsItsInputOrIsRefused := by
  refine fun c => ⟨fun program input => construct_of_not_admitted, fun xs s =>
    ⟨fun hf => ?_, command_run_of_terminal c xs, fun hr cmd => command_of_running c cmd hr, fun hstop b => ?_⟩⟩
  · have hstop : s.fsm ≠ .running := by rcases hf with hf | hf <;> simp [hf]
    rw [command_run hstop, runCommand]
    refine ⟨fun ha => ?_, fun ha => ?_⟩
    · rw [startRun_of_admitted hf ha]; rfl
    · rw [startRun_of_not_admitted hf ha]
  · simp only [command, hstop, if_false]

/-! ## RESET (R232) -/

/-- Between runs RESET is accepted. -/
theorem command_reset (c : Config) {s : State} (hstop : s.fsm ≠ .running) :
    command c .reset s = .next (resetState c s, .done) := by
  simp only [command, hstop, if_false]

/-- Settles O49: the fields of `resetState`, memory at each value of `RESET_RESTORES_MEMORY`. -/
theorem resetCommandEffect : Obligations.ResetCommandEffect := by
  intro c s hstop
  refine ⟨_, command_reset c hstop, rfl, rfl, rfl, rfl, fun hc => ?_, fun hc m hm => ?_, rfl, rfl, rfl⟩
  · simp [hc]
  · simp [hc, hm]

end Sys2Proof.Machine
end

section
/-!
PROOF. Runs (70_reset_and_hazards.md R235, 40_engine.md R108, R115, R116): a step has one outcome, so a run follows one
path; it stops at the first state that is not running, or there is none and it diverges.
-/

namespace Sys2Proof.Machine

section
variable {c : Config} {s t u : State}

/-- The end of a run is not running. -/
theorem RunsTo.stopped (h : RunsTo c s t) : t.fsm ≠ .running := by
  induction h with
  | ended s hstop => exact hstop
  | step s m t _ _ ih => exact ih

/-- A run ends in one state only: each of its steps has one outcome. -/
theorem RunsTo.unique (ht : RunsTo c s t) (hu : RunsTo c s u) : t = u := by
  induction ht with
  | ended s hstop => exact (hu.eq_of_stopped hstop).symm
  | step s m t hs _ ih =>
    cases hu with
    | ended _ hstop => exact absurd (stepIn_cases hs).1 hstop
    | step _ m' _ hs' hu' =>
      cases hs.symm.trans hs'
      exact ih hu'

/-- No step leaves the machine Ready, so a run that does not start so does not end so (R109). -/
theorem RunsTo.ne_ready (h : RunsTo c s t) (hs : s.fsm ≠ .ready) : t.fsm ≠ .ready := by
  induction h with
  | ended s _ => exact hs
  | step s m t hstep _ ih => exact ih (stepIn_fsm_ne_ready hstep)

/-- A run from a state without an error records one only by ending Errored (R30). -/
theorem RunsTo.err_eq_none (h : RunsTo c s t) (hs : s.err = none) (ht : t.fsm ≠ .errored) : t.err = none := by
  induction h with
  | ended s _ => exact hs
  | step s m t hstep hm ih =>
    obtain hkept | ⟨e, rfl, -⟩ := stepIn_err hstep
    · exact ih (hkept.trans hs) ht
    · rw [hm.eq_of_stopped nofun] at ht
      exact absurd rfl ht

/-- A run that diverges still diverges after a step. -/
theorem Diverges.of_step (h : Diverges c s) (hs : stepIn c s = .next t) : Diverges c t := by
  intro n
  obtain ⟨v, ⟨m, hm, hv⟩, hrun⟩ := h (n + 1)
  cases hs.symm.trans hm
  exact ⟨v, hv, hrun⟩

/-- A run that ends does not diverge. -/
theorem RunsTo.not_diverges (h : RunsTo c s t) : ¬ Diverges c s := by
  induction h with
  | ended s hstop =>
    intro hd
    obtain ⟨_, rfl, hrun⟩ := hd 0
    exact hstop hrun
  | step s m t hs _ ih => exact fun hd => ih (hd.of_step hs)

/-- A run that is no longer running after `n` steps has ended by then. -/
theorem exists_runsTo_of_not_running (n : Nat) (h : ¬ ∃ t, stepsTo c n s t ∧ t.fsm = .running) :
    ∃ t, RunsTo c s t := by
  induction n generalizing s with
  | zero => exact ⟨s, .ended s fun hr => h ⟨s, rfl, hr⟩⟩
  | succ n ih =>
    by_cases hr : s.fsm = .running
    · obtain ⟨m, hm⟩ := stepIn_next c hr
      obtain ⟨t, ht⟩ := ih fun ⟨v, hv, hrun⟩ => h ⟨v, ⟨m, hm, hv⟩, hrun⟩
      exact ⟨t, .step s m t hm ht⟩
    · exact ⟨s, .ended s hr⟩

theorem exists_runsTo_or_diverges (c : Config) (s : State) : (∃ t, RunsTo c s t) ∨ Diverges c s := by
  by_cases hd : Diverges c s
  · exact .inr hd
  · obtain ⟨n, hn⟩ := not_forall.1 hd
    exact .inl (exists_runsTo_of_not_running n hn)

end

/-- Settles O53: the two ways a run can go on exclude each other, and the end of a run is unique, neither Running nor
Ready, and without an error unless it is Errored. -/
theorem everyRunEndsOnceOrDiverges : Obligations.EveryRunEndsOnceOrDiverges := by
  intro c s hr
  refine ⟨exists_runsTo_or_diverges c s, fun ⟨⟨t, ht⟩, hd⟩ => ht.not_diverges hd, fun t u => RunsTo.unique,
    fun t ht => ?_, fun t ht hs => ⟨And.left, fun hh => ⟨hh, ht.err_eq_none hs (by simp [hh])⟩⟩⟩
  have hstop := ht.stopped
  have hready := ht.ne_ready (by simp [hr])
  cases hf : t.fsm with
  | ready => exact absurd hf hready
  | running => exact absurd hf hstop
  | blocked => exact .inl rfl
  | halted => exact .inr (.inl rfl)
  | errored => exact .inr (.inr rfl)

end Sys2Proof.Machine
end
